-- ==== Sys2Proof/Word.lean ====
section
/-! DEFINITION. Word.lean: the two widths CORE fixes (00_scope.md R7). -/

namespace Sys2Proof

/-- A memory cell, an opcode and an operand byte: 8 bits (R7, R33). -/
abbrev Byte := BitVec 8

/-- A general-purpose register, FLAGS and the instruction pointer: 32 bits (R7, R12, R18, R23). -/
abbrev Word := BitVec 32

end Sys2Proof
end

