-- ==== Sys2Proof/Syntax.lean ====
section
/-! DEFINITION. Syntax.lean: the instructions, the dispatch table's entries and the two error classes. -/

namespace Sys2Proof

/-- A general-purpose register's 3-bit index; no other index can be formed (10_state.md R15). -/
abbrev GprIndex := Fin 8

/-- The instructions in scope, one constructor per row of spec/opcode_table.json (R2), with their operands
as 30_encoding.md R64 and R65 assemble them. -/
inductive Instr where
  /-- `MOV r32, imm32` (R71): destination index and 32-bit immediate. -/
  | movImm32 (r : GprIndex) (imm : Word)
  /-- `JMP rel8` (R72): the signed displacement, in [-128, 127] when well formed (R65). -/
  | jmpRel8 (d : Int)
deriving DecidableEq, Repr

/-- The length in bytes, opcode and operands together (30_encoding.md R54). -/
def Instr.size : Instr → Nat
  | .movImm32 _ _ => 5
  | .jmpRel8 _ => 2

/-- One entry of the dispatch table, the closed variant of 30_encoding.md R57. -/
inductive Entry where
  /-- Not implemented. -/
  | absent
  /-- Move-immediate into GPR[r]. -/
  | movImm32 (r : GprIndex)
  /-- Short relative jump. -/
  | jmpRel8
deriving DecidableEq, Repr

/-- CORE's two error classes, and no other (60_exceptions.md R86). -/
inductive ErrorClass where
  /-- The instruction pointer or a byte it reads lies outside memory. -/
  | outOfBoundsAccess
  /-- The fetched byte has no dispatch entry. -/
  | unimplementedOpcode
deriving DecidableEq, Repr

end Sys2Proof
end

