-- ==== Sys2Proof/WellFormed.lean ====
section
/-! DEFINITION. WellFormed.lean: which terms of `Instr` stand for an instruction of CORE. -/

namespace Sys2Proof

/-- The one range the types leave open: a displacement is a signed 8-bit value (30_encoding.md R65).
A register index and an immediate are in range by their types (R15, R64). -/
def Instr.wellFormed : Instr → Bool
  | .movImm32 _ _ => true
  | .jmpRel8 d => decide (-128 ≤ d) && decide (d ≤ 127)

end Sys2Proof
end

