-- ==== Sys2Proof/Decode.lean ====
section
/-! DEFINITION. Decode.lean: the dispatch multiplexer, the decoder field reads, the decoder and the encoder
(30_encoding.md).

The decoder reads bytes at offsets from the opcode byte through a `ByteSource`, so that ONE decoder serves the
machine (whose source is memory at IP, Machine/Ops.lean) and a list of bytes (`decode`). -/

namespace Sys2Proof

/-- Where the decoder reads: the byte at offset `k` from the opcode byte, or the typed error of a read that
fails (30_encoding.md R60, R63; 00_scope.md R9). -/
abbrev ByteSource := Nat → Except ErrorClass Byte

/-- The byte read as two's complement, in [-128, 127] (R61). -/
def s8 (b : Byte) : Int := if b.toNat < 128 then (b.toNat : Int) else (b.toNat : Int) - 256

/-- Four bytes composed by shift and OR, the first least significant (20_memory.md R40, R42). -/
def composeLE (b0 b1 b2 b3 : Byte) : Word :=
  b0.setWidth 32 ||| (b1.setWidth 32 <<< 8) ||| (b2.setWidth 32 <<< 16) ||| (b3.setWidth 32 <<< 24)

/-- `fetchUnsigned8(offset)` (R60). -/
def fetchU8 (src : ByteSource) (k : Nat) : Except ErrorClass Byte := src k

/-- `fetchSigned8(offset)` (R61). -/
def fetchS8 (src : ByteSource) (k : Nat) : Except ErrorClass Int :=
  match fetchU8 src k with
  | .ok b => .ok (s8 b)
  | .error e => .error e

/-- `fetchLittleEndian32(offset)` (R62): four byte reads, which fail if one of them fails. -/
def fetchLE32 (src : ByteSource) (k : Nat) : Except ErrorClass Word :=
  match src k with
  | .error e => .error e
  | .ok b0 =>
    match src (k + 1) with
    | .error e => .error e
    | .ok b1 =>
      match src (k + 2) with
      | .error e => .error e
      | .ok b2 =>
        match src (k + 3) with
        | .error e => .error e
        | .ok b3 => .ok (composeLE b0 b1 b2 b3)

/-- GPR address decode: opcode[2:0], used on 0xB8 to 0xBF only (R59). -/
def gprOfOpcode (op : Byte) : GprIndex := ⟨(op.extractLsb' 0 3).toNat, (op.extractLsb' 0 3).isLt⟩

/-- The dispatch table: 0xB8 to 0xBF, both ends included (C1), and 0xEB; every other byte is Absent
(R57, R58, R67). -/
def dispatch (op : Byte) : Entry :=
  if 0xB8 ≤ op.toNat ∧ op.toNat ≤ 0xBF then .movImm32 (gprOfOpcode op)
  else if op.toNat = 0xEB then .jmpRel8
  else .absent

/-- Decoding in the order of 50_execution_loop.md R75: the opcode byte, its dispatch entry, then the operand
bytes of the selected operation. A byte that cannot be read gives OutOfBoundsAccess, an Absent entry
UnimplementedOpcode with no further byte read (R54, R67). -/
def decodeFrom (src : ByteSource) : Except ErrorClass Instr :=
  match fetchU8 src 0 with
  | .error e => .error e
  | .ok op =>
    match dispatch op with
    | .absent => .error .unimplementedOpcode
    | .movImm32 r =>
      match fetchLE32 src 1 with
      | .error e => .error e
      | .ok imm => .ok (.movImm32 r imm)
    | .jmpRel8 =>
      match fetchS8 src 1 with
      | .error e => .error e
      | .ok d => .ok (.jmpRel8 d)

/-- The bytes of a list as a source: an offset past its end cannot be read. -/
def listSource (bs : List Byte) : ByteSource := fun k =>
  match bs[k]? with
  | some b => .ok b
  | none => .error .outOfBoundsAccess

/-- The decoder on any list of bytes: the instruction and the bytes after it, or the reason it is none. -/
def decode (bs : List Byte) : Except ErrorClass (Instr × List Byte) :=
  match decodeFrom (listSource bs) with
  | .error e => .error e
  | .ok i => .ok (i, bs.drop i.size)

/-- The bytes of an instruction, first at the lowest address, from the formats MOVI (R55) and JREL8 (R56). -/
def encode : Instr → List Byte
  | .movImm32 r imm =>
    [0xB8 + BitVec.ofNat 8 r.val, imm.extractLsb' 0 8, imm.extractLsb' 8 8, imm.extractLsb' 16 8,
      imm.extractLsb' 24 8]
  | .jmpRel8 d => [0xEB, BitVec.ofInt 8 d]

/-- Byte `k` of an instruction whose bits are `w`, numbered as spec/opcode_table.json numbers them: bit 0 the
least significant bit of the first byte. Bits from `nbits` on are 0. -/
def tableByte (nbits w k : Nat) : Byte := BitVec.ofNat 8 ((w % 2 ^ nbits) >>> (8 * k))

/-- Those bits laid out as memory holds them, as many bytes as the longest instruction has (R54). -/
def tableBytes (nbits w : Nat) : List Byte :=
  [tableByte nbits w 0, tableByte nbits w 1, tableByte nbits w 2, tableByte nbits w 3, tableByte nbits w 4]

/-- The instruction the decoder reads from a word of the opcode table. -/
def decodeTableWord (nbits w : Nat) : Option Instr :=
  match decode (tableBytes nbits w) with
  | .ok (i, _) => some i
  | .error _ => none

end Sys2Proof
end

