-- ==== Sys2Proof/Machine/Operands.lean ====
section
/-! DEFINITION. Machine/Operands.lean: the operand computations of the two instructions and the register
names. MOV's two operands need none: the decoder assembles index and immediate whole (30_encoding.md R59, R64). -/

namespace Sys2Proof.Machine

/-- Sign extension of an 8-bit pattern to 32 bits (00_scope.md section 5, `sext_32`). -/
def sext32 (b : Byte) : Word := b.signExtend 32

/-- The displacement as the 32-bit addend of the target, unscaled (30_encoding.md R65). -/
def displacement (d : Int) : Word := sext32 (BitVec.ofInt 8 d)

/-- The target of a short jump whose opcode stands at `ip`, modulo 2^32 (41_control_transfer.md R72;
10_state.md R22). -/
def jumpTarget (ip : Word) (d : Int) : Word := ip + displacement d + 2

/-- The registers by the source's roles (10_state.md R13). -/
def accumulator : GprIndex := 0
/-- GPR[1] (R13). -/
def counter : GprIndex := 1
/-- GPR[2] (R13). -/
def data : GprIndex := 2
/-- GPR[3] (R13). -/
def base : GprIndex := 3
/-- GPR[4] (R13): no special behaviour in a run, only its reset value differs (R16). -/
def stackPointer : GprIndex := 4
/-- GPR[5] (R13). -/
def basePointer : GprIndex := 5
/-- GPR[6] (R13). -/
def sourceIndex : GprIndex := 6
/-- GPR[7] (R13). -/
def destinationIndex : GprIndex := 7

end Sys2Proof.Machine
end

