-- ==== Sys2Proof/Config.lean ====
section
/-! DEFINITION. Config.lean: the construction parameters of CORE, their defaults and their ranges (00_scope.md R6). -/

namespace Sys2Proof

/-- The source's default memory size, 1 MiB (R6). -/
def Config.defaultMemSize : Nat := 1048576

/-- The source's default initial instruction pointer (R6). -/
def Config.defaultInitIP : Word := 0

/-- The source's default initial stack pointer (R6). -/
def Config.defaultInitSP : Word := 0x7C00

/-- The largest memory a launch may have, 2^32 bytes (R6, decision D6; log 8). -/
def Config.maxMemSize : Nat := 4294967296

/-- The longest image the loader places (R6, R105). -/
def Config.maxImageLength : Nat := 512

/-- The four construction parameters, fixed for the whole run (R6). -/
structure Params where
  /-- N, the memory size in bytes. -/
  memSize : Nat
  /-- The initial instruction pointer. -/
  initIP : Word
  /-- The initial stack-pointer register. -/
  initSP : Word
  /-- The bytes the host's loader places at the start of memory (R105). -/
  image : List Byte
deriving DecidableEq, Repr

/-- The source's defaults, with an empty image (R6; 95_test_vectors.md VR1). -/
def Params.default : Params :=
  { memSize := Config.defaultMemSize, initIP := Config.defaultInitIP,
    initSP := Config.defaultInitSP, image := [] }

/-- The ranges a launch keeps: N <= 2^32, L <= 512 and L <= N (R6, decisions D6 and D8; log 8). -/
abbrev Params.inRange (p : Params) : Prop :=
  p.memSize ≤ Config.maxMemSize ∧ p.image.length ≤ Config.maxImageLength ∧ p.image.length ≤ p.memSize

end Sys2Proof
end

