-- ==== Sys2Proof/Machine/State.lean ====
section
/-! DEFINITION. Machine/State.lean: the architectural state of CORE (10_state.md R11), the reasons a step can
stop, and the state after reset. -/

namespace Sys2Proof.Machine

/-- Memory M: N bytes at addresses 0 to N-1 (20_memory.md R32, R33). An unlisted address below N reads 0,
the value R34 gives every byte before the loader. -/
structure Memory where
  /-- N, fixed for the run (00_scope.md R6). -/
  size : Nat
  /-- The bytes that are not 0, by rising address (`Memory.wf`, Machine/Ops.lean). -/
  cells : List Host.Cell
deriving DecidableEq, Repr

/-- The execution state, the spec's `state` (10_state.md R27). -/
inductive ExecState where
  /-- The loop is executing. -/
  | running
  /-- IP was 0 after an operation: the successful end (R79). -/
  | haltedNormally
  /-- The fetched opcode has no dispatch entry (R89). -/
  | haltedUnimplemented
  /-- IP or a byte it reads lies outside memory (R88). -/
  | haltedOutOfBounds
deriving DecidableEq, Repr

/-- All the state CORE has (R11). -/
structure State where
  /-- M and N. -/
  mem : Memory
  /-- GPR[0] to GPR[7] (R12, R13). -/
  gpr : Vector Word 8
  /-- FLAGS, storage only (R23). -/
  flags : Word
  /-- IP (R18). -/
  ip : Word
  /-- The spec's `state` (R27). -/
  execState : ExecState
deriving DecidableEq, Repr

/-- Why a step has no next state although the machine was launched: the run ended before it with an error
(60_exceptions.md R86; 50_execution_loop.md R85 and D15 class the two error halts as faults). Raised by `step` on a
state that is already halted, never by an instruction's meaning. Safe: the halt itself is a next state, and R80
gives a halted machine no step (log 3). -/
inductive Fault where
  /-- The machine stands in HaltedOutOfBounds. Safe. -/
  | outOfBoundsAccess
  /-- The machine stands in HaltedUnimplemented. Safe. -/
  | unimplementedOpcode
deriving DecidableEq, Repr

/-- Why the model gives no meaning. -/
inductive Refusal where
  /-- An instruction without a meaning yet; no arm of `exec` answers it any more. Safe. -/
  | notModelled (mnemonic : String)
  /-- `step` in HaltedNormally: the program has ended and R80 gives no step; no error (R79). Safe (log 3). -/
  | haltedNormally
  /-- `construct` on parameters out of range: such a launch has no run (R6, U7). Safe (log 8). -/
  | launchRefused
deriving DecidableEq, Repr

/-- Right after reset: the construction with the source's default parameters and an empty image (10_state.md R30;
95_test_vectors.md VR1; log 1). Machine/HostSide.lean's `construct` gives it for any parameters. -/
def State.reset : State :=
  { mem := { size := Config.defaultMemSize, cells := [] }
    gpr := #v[0, 0, 0, 0, Config.defaultInitSP, 0, 0, 0]
    flags := 0
    ip := Config.defaultInitIP
    execState := .running }

end Sys2Proof.Machine
end

