-- ==== Sys2Proof/Machine/Ops.lean ====
section
/-! DEFINITION. Machine/Ops.lean: the named operations over memory and registers, instruction fetch, the
transition every error takes, and the post-execution check. -/

namespace Sys2Proof.Machine

/-! ### Memory -/

/-- What a list of cells holds at an address; 0 where it lists none (20_memory.md R34). -/
def lookupCell (a : Nat) : List Host.Cell → Byte
  | [] => 0
  | (k, b) :: rest => if k = a then b else lookupCell a rest

/-- The list with a cell in front, or without it where the byte is what an unlisted address reads as. -/
def consCell (a : Nat) (b : Byte) (rest : List Host.Cell) : List Host.Cell :=
  if b = 0 then rest else (a, b) :: rest

/-- The list with address `a` holding `b`, in the canonical form. -/
def insertCell (a : Nat) (b : Byte) : List Host.Cell → List Host.Cell
  | [] => consCell a b []
  | (k, v) :: rest =>
    if a < k then consCell a b ((k, v) :: rest)
    else if a = k then consCell a b rest
    else (k, v) :: insertCell a b rest

/-- The canonical form: addresses strictly rising and below N, and no byte listed that reads 0 unlisted. -/
abbrev Memory.wf (m : Memory) : Prop :=
  m.cells.Pairwise (fun x y => x.1 < y.1) ∧ ∀ c ∈ m.cells, c.1 < m.size ∧ c.2 ≠ 0

/-- `read8`, `MemRead(a, 1)`: the byte, or OutOfBoundsAccess and nothing read (20_memory.md R36, R38). -/
def Memory.read8 (m : Memory) (a : Nat) : Except ErrorClass Byte :=
  if a < m.size then .ok (lookupCell a m.cells) else .error .outOfBoundsAccess

/-- Memory seen from an address, as the decoder reads it. The sum is exact: no wrap before the bounds check
(20_memory.md R37, D2; log 4). -/
def Memory.source (m : Memory) (start : Nat) : ByteSource := fun k => m.read8 (start + k)

/-- `MemRead(a, 4)`: four byte reads composed little-endian (20_memory.md R40). -/
def Memory.read32 (m : Memory) (a : Nat) : Except ErrorClass Word := fetchLE32 (m.source a) 0

/-- The host's placement of one byte before a run. No instruction has a write (20_memory.md R43). An address
outside memory is left alone; the loader never names one (00_scope.md R6). -/
def Memory.place (m : Memory) (a : Nat) (b : Byte) : Memory :=
  if a < m.size then { m with cells := insertCell a b m.cells } else m

/-- The host's placement of bytes at rising addresses from `a`. -/
def Memory.placeAll (m : Memory) (a : Nat) : List Byte → Memory
  | [] => m
  | b :: rest => (m.place a b).placeAll (a + 1) rest

/-! ### Registers -/

/-- Read of GPR[r] (10_state.md R15). -/
def State.readGpr (s : State) (r : GprIndex) : Word := s.gpr[r]

/-- Write of GPR[r]: all 32 bits, no register hard-wired (10_state.md R14). -/
def State.writeGpr (s : State) (r : GprIndex) (v : Word) : State := { s with gpr := s.gpr.set r v }

/-- Write of IP. -/
def State.writeIP (s : State) (v : Word) : State := { s with ip := v }

/-- IP moved past `n` bytes, modulo 2^32 (10_state.md R22, D3; log 5). -/
def State.advanceIP (s : State) (n : Nat) : State := s.writeIP (s.ip + BitVec.ofNat 32 n)

/-! ### Instruction fetch -/

/-- Memory as the decoder reads it in this state: relative to IP (30_encoding.md R60, 10_state.md R19). -/
def State.source (s : State) : ByteSource := s.mem.source s.ip.toNat

/-- Stages 1 to 3 of a step up to the operation itself: the opcode fetch, the dispatch and the operand reads
(50_execution_loop.md R75 to R78), one read of the opcode byte serving both (R81). -/
def State.fetchInstr (s : State) : Except ErrorClass Instr := decodeFrom s.source

/-! ### Errors and the end of a step -/

/-- The halt state an error class causes (60_exceptions.md R88, R89). -/
def ErrorClass.haltState : ErrorClass → ExecState
  | .outOfBoundsAccess => .haltedOutOfBounds
  | .unimplementedOpcode => .haltedUnimplemented

/-- Taking an error, CORE's only response to one: the execution state is the halt state and nothing else is
written. There is no handler, vector or saved context (60_exceptions.md R87, R95), and no return (R96). -/
def raise (e : ErrorClass) (s : State) : State := { s with execState := ErrorClass.haltState e }

/-- The execution state the post-execution check finds: the zero test first (50_execution_loop.md R79). -/
def postState (s : State) : ExecState :=
  if s.ip = 0 then .haltedNormally
  else if s.ip.toNat < s.mem.size then .running
  else .haltedOutOfBounds

/-- The post-execution check: it reads IP and writes nothing but the execution state (R79). -/
def postCheck (s : State) : State := { s with execState := postState s }

/-- Stage 4 of a step, after an operation that completed (R75). -/
def afterOperation : Host.Outcome State Fault Refusal → Host.Outcome State Fault Refusal
  | .next s => .next (postCheck s)
  | .fault f => .fault f
  | .refused r => .refused r

/-- What a step answers on a machine that does not run: no next state (50_execution_loop.md R80), but which end it
came to (R85, D15; log 3). -/
def haltedAnswer : ExecState → Option (Host.Outcome State Fault Refusal)
  | .running => none
  | .haltedNormally => some (.refused .haltedNormally)
  | .haltedUnimplemented => some (.fault .unimplementedOpcode)
  | .haltedOutOfBounds => some (.fault .outOfBoundsAccess)

/-! ### Codes -/

/-- The 2-bit codes of the execution state, the spec's own choice (10_state.md R27, D5; log 7). -/
def ExecState.code : ExecState → BitVec 2
  | .running => 0
  | .haltedNormally => 1
  | .haltedUnimplemented => 2
  | .haltedOutOfBounds => 3

/-- The code of an error is that of its halt state (60_exceptions.md R90, D5; log 7). -/
def ErrorClass.code (e : ErrorClass) : BitVec 2 := (ErrorClass.haltState e).code

end Sys2Proof.Machine
end

