-- ==== Sys2Proof/Machine/ControlTransfer.lean ====
section
/-! DEFINITION. Machine/ControlTransfer.lean: 41_control_transfer.md. -/

namespace Sys2Proof.Machine

/-- `JMP rel8` (R72), its displacement read by the decoder: IP takes the target, relative to the end of the two
bytes. The target is not checked here; the post-execution check finds one outside memory (C4). -/
def execJmpRel8 (d : Int) (s : State) : Host.Outcome State Fault Refusal :=
  .next (s.writeIP (jumpTarget s.ip d))

end Sys2Proof.Machine
end

