-- ==== Sys2Proof/Machine/DataMovement.lean ====
section
/-! DEFINITION. Machine/DataMovement.lean: 40_data_movement.md. -/

namespace Sys2Proof.Machine

/-- `MOV r32, imm32` (R71), its operands read by the decoder: GPR[r] takes all 32 bits of the immediate and IP
moves past the five bytes. No flag is written. -/
def execMovImm32 (r : GprIndex) (imm : Word) (s : State) : Host.Outcome State Fault Refusal :=
  .next ((s.writeGpr r imm).advanceIP 5)

end Sys2Proof.Machine
end

