-- ==== Sys2Proof/Machine/Dispatch.lean ====
section
/-! DEFINITION. Machine/Dispatch.lean: the meaning of each instruction, one arm per constructor. -/

namespace Sys2Proof.Machine

/-- The operation the dispatch multiplexer selects (50_execution_loop.md R75, stage 3). -/
def exec (i : Instr) (s : State) : Host.Outcome State Fault Refusal :=
  match i with
  | .movImm32 r imm => Sys2Proof.Machine.execMovImm32 r imm s
  | .jmpRel8 d => Sys2Proof.Machine.execJmpRel8 d s

end Sys2Proof.Machine
end

