-- ==== Sys2Proof/Machine/Step.lean ====
section
/-! DEFINITION. Machine/Step.lean: one step of CORE (50_execution_loop.md R75), and the host's placement of an
instruction where the next step fetches it. -/

namespace Sys2Proof.Machine

/-- One step: from Running, fetch and dispatch, then the operation and the post-execution check, or the halt of
the error found; from a Halted state there is no next state (R80). -/
def step (s : State) : Host.Outcome State Fault Refusal :=
  match haltedAnswer s.execState with
  | some stopped => stopped
  | none =>
    match s.fetchInstr with
    | .error e => .next (raise e s)
    | .ok i => afterOperation (exec i s)

/-- The state with an instruction of the opcode table where the next step fetches: its bytes at IP, and the machine
Running, since a halted one does not fetch. It stands for the host's loader (R105; log 2). Bytes that would lie
outside memory are not placed, so the instruction is whole where IP + 5 is at most N. -/
def State.withFetchWord (s : State) (nbits w : Nat) : State :=
  { s with mem := s.mem.placeAll s.ip.toNat (tableBytes nbits w), execState := .running }

end Sys2Proof.Machine
end

