-- ==== Sys2Proof/Machine/Assembler.lean ====
section
/-! DEFINITION. Machine/Assembler.lean: the spec's assembler notation and the bytes it stands for (30_encoding.md R68, the spec's
own choice, D10; log 10). It is notation only: no rule of the machine reads it. -/

namespace Sys2Proof.Machine

/-- A line of the spec's programs: an instruction, or `.byte b`. There are no pseudo-instructions (R69). -/
inductive AsmLine where
  /-- `MOV r32, imm32` or `JMP rel8`. -/
  | instr (i : Instr)
  /-- `.byte b`: data, or an absent opcode. -/
  | byte (b : Byte)
deriving DecidableEq, Repr

/-- The bytes of a line (R68). -/
def AsmLine.bytes : AsmLine → List Byte
  | .instr i => encode i
  | .byte b => [b]

/-- The bytes of a program, in address order. -/
def assemble (lines : List AsmLine) : List Byte := lines.flatMap AsmLine.bytes

/-- The conventional names of the registers, labels only (10_state.md R13; K1). -/
def gprLabel : GprIndex → String
  | 0 => "EAX"
  | 1 => "ECX"
  | 2 => "EDX"
  | 3 => "EBX"
  | 4 => "ESP"
  | 5 => "EBP"
  | 6 => "ESI"
  | 7 => "EDI"

/-- The text of an instruction; the operand of `JMP` is the displacement, not the target (R68). -/
def instrText : Instr → String
  | .movImm32 r imm => "MOV " ++ gprLabel r ++ ", " ++ toString imm.toNat
  | .jmpRel8 d => "JMP " ++ toString d

/-- The displacement that takes a jump at `p` to `target`, where one exists (R68). -/
def rel8Of (p target : Nat) : Option Int :=
  let d : Int := (target : Int) - ((p : Int) + 2)
  if -128 ≤ d ∧ d ≤ 127 then some d else none

end Sys2Proof.Machine
end

