-- ==== Sys2Proof/Machine/Flags.lean ====
section
/-! DEFINITION. Machine/Flags.lean: the named fields of FLAGS (10_state.md R24). No instruction computes a flag
(R25), so there is no flag computation: all 32 bits are storage, none hard-wired (R23, D9; log 9). -/

namespace Sys2Proof.Machine

/-- Bit 0 (R24). -/
def State.carry (s : State) : Bool := s.flags.getLsbD 0

/-- Bit 9 (R24): no effect, CORE has no interrupts (60_exceptions.md R94). -/
def State.interruptEnable (s : State) : Bool := s.flags.getLsbD 9

/-- Bits 13:12 (R24): no effect, CORE has no privilege levels (60_exceptions.md R98). -/
def State.ioPrivilegeLevel (s : State) : BitVec 2 := s.flags.extractLsb' 12 2

end Sys2Proof.Machine
end

