-- ==== Sys2Proof/Machine/HostSide.lean ====
section
/-! DEFINITION. Machine/HostSide.lean: what the host does with CORE: construct it before the run and read it after a
halt (00_scope.md R9; 60_exceptions.md R92; 70_reset_and_hazards.md R105, R106). -/

namespace Sys2Proof.Machine

/-- The state construction leaves for parameters in range (R106, 10_state.md R30): memory zeroed, then the image at
its start; the stack pointer and IP from the parameters; every other register 0; Running. -/
def constructed (p : Params) : State :=
  { mem := Memory.placeAll { size := p.memSize, cells := [] } 0 p.image
    gpr := (Vector.replicate 8 (0 : Word)).set stackPointer p.initSP
    flags := 0
    ip := p.initIP
    execState := .running }

/-- Construction, CORE's only reset (R109). A launch out of range has no run (00_scope.md R6, U7). -/
def construct (p : Params) : Host.Outcome State Fault Refusal :=
  if p.inRange then .next (constructed p) else .refused .launchRefused

/-- What the host reads after a halt: the registers and the execution state (60_exceptions.md R92), and memory, which R104
says remains readable too (log 11). -/
structure HostView where
  /-- M, which holds its reset content (R92, R104). -/
  mem : Memory
  /-- Every GPR. -/
  gpr : Vector Word 8
  /-- FLAGS (10_state.md R26). -/
  flags : Word
  /-- IP: what each halt leaves in it is R91's table. -/
  ip : Word
  /-- Which of the three ends the run came to. -/
  execState : ExecState
deriving DecidableEq, Repr

/-- The host's read: nothing while Running (R92, R104, D16; log 11). -/
def hostView (s : State) : Option HostView :=
  if s.execState = .running then none
  else some { mem := s.mem, gpr := s.gpr, flags := s.flags, ip := s.ip, execState := s.execState }

/-- Which error occurred, if one did (R87, R91): the execution state is the only record of it (D14). -/
def errorOf : ExecState → Option ErrorClass
  | .running => none
  | .haltedNormally => none
  | .haltedUnimplemented => some .unimplementedOpcode
  | .haltedOutOfBounds => some .outOfBoundsAccess

end Sys2Proof.Machine
end

