-- ==== Sys2Proof/Safety.lean ====
section
/-! DEFINITION. Safety.lean: the terms claims about runs use. -/

namespace Sys2Proof.Machine

/-- The run ended well: HaltedNormally is the only successful final state (50_execution_loop.md R85, D15). -/
def State.endedWell (s : State) : Prop := s.execState = .haltedNormally

/-- A safe run: however many steps are asked for, no error halt is met (R85: the two error halts are faults). A run
without end (R82) is safe and never ends well. -/
def State.safe (s : State) : Prop := ∀ k f, Sys2Proof.core.run k s ≠ .fault f

/-- The same machine with other values in the registers no step reads (10_state.md R16, R25). -/
def State.withData (s : State) (gpr : Vector Word 8) (flags : Word) : State := { s with gpr := gpr, flags := flags }

/-- What 60_exceptions.md R88, R89 and R91 say IP holds at each halt, read from the memory and IP alone. At an
out-of-bounds halt IP is out of range itself (cases a and d), or an operand of the instruction at IP is (b and c). -/
def State.haltRecord (s : State) : Prop :=
  match s.execState with
  | .running => True
  | .haltedNormally => s.ip = 0
  | .haltedUnimplemented =>
    s.ip.toNat < s.mem.size ∧ dispatch (lookupCell s.ip.toNat s.mem.cells) = .absent
  | .haltedOutOfBounds =>
    s.mem.size ≤ s.ip.toNat ∨
    (s.mem.size ≤ s.ip.toNat + 4 ∧ ∃ r, dispatch (lookupCell s.ip.toNat s.mem.cells) = .movImm32 r) ∨
    (s.mem.size ≤ s.ip.toNat + 1 ∧ dispatch (lookupCell s.ip.toNat s.mem.cells) = .jmpRel8)

/-- The invariant every step keeps: memory in its canonical form and of a size a launch may have, and the record of a
halt as the spec gives it. -/
structure State.Inv (s : State) : Prop where
  /-- The canonical form of memory. -/
  memWf : s.mem.wf
  /-- N is at most 2^32 (00_scope.md R6). -/
  memSize : s.mem.size ≤ Config.maxMemSize
  /-- R91's table. -/
  record : s.haltRecord

end Sys2Proof.Machine
end

