-- ==== Sys2Proof/Certificates/Slice0/Obligations.lean ====
section
/-! DEFINITION. Certificates/Slice0/Obligations.lean: the statements about CORE, each a proposition; none is proved here.

Marks in the docstrings: "decision D<n>" is a point 92_eei_decisions.md closes by the spec's own choice, "model's choice"
one the model makes; both stand in notes/assumptions. -/

open Sys2Proof Sys2Proof.Machine

/-! ### Reset and construction -/

/-- The reset state is the construction with the source's default parameters and an empty image: 10_state.md R30 at the
defaults of 00_scope.md R6 (95_test_vectors.md VR1). Taking the defaults is the model's choice (log 1). -/
def Obligations.ResetIsTheDefaultConstruction : Prop :=
  construct Params.default = .next State.reset ∧
  State.reset.mem.size = 1048576 ∧ (∀ a, a < 1048576 → State.reset.mem.read8 a = .ok 0) ∧
  State.reset.readGpr stackPointer = 0x7C00 ∧
  (∀ r, r ≠ stackPointer → State.reset.readGpr r = 0) ∧
  State.reset.flags = 0 ∧ State.reset.ip = 0 ∧ State.reset.execState = .running

/-- 10_state.md R30, the whole table, for every launch in range. -/
def Obligations.ConstructionSetsEveryResetValue : Prop :=
  ∀ p : Params, p.inRange →
    ∃ s, construct p = .next s ∧ s.mem.size = p.memSize ∧
      (∀ (a : Nat) (h : a < p.image.length), s.mem.read8 a = .ok p.image[a]) ∧
      (∀ a, p.image.length ≤ a → a < p.memSize → s.mem.read8 a = .ok 0) ∧
      s.readGpr 0 = 0 ∧ s.readGpr 1 = 0 ∧ s.readGpr 2 = 0 ∧ s.readGpr 3 = 0 ∧
      s.readGpr 4 = p.initSP ∧ s.readGpr 5 = 0 ∧ s.readGpr 6 = 0 ∧ s.readGpr 7 = 0 ∧
      s.flags = 0 ∧ s.carry = false ∧ s.interruptEnable = false ∧ s.ioPrivilegeLevel = 0 ∧
      s.ip = p.initIP ∧ s.execState = .running

/-- A launch has a run exactly when its parameters keep the ranges of 00_scope.md R6 (decisions D6, D8; log 8). -/
def Obligations.LaunchOutOfRangeIsRefused : Prop :=
  ∀ p : Params,
    ((∃ s, construct p = .next s) ↔
      p.memSize ≤ 2 ^ 32 ∧ p.image.length ≤ 512 ∧ p.image.length ≤ p.memSize) ∧
    (¬ (p.memSize ≤ 2 ^ 32 ∧ p.image.length ≤ 512 ∧ p.image.length ≤ p.memSize) →
      construct p = .refused .launchRefused)

/-! ### Memory -/

/-- 20_memory.md R36 and R38: the in-bounds test, the byte it gives, and the error of every other read. -/
def Obligations.ByteReadIsBoundsChecked : Prop :=
  ∀ (m : Memory) (a : Nat),
    ((∃ b, m.read8 a = .ok b) ↔ 0 ≤ a ∧ a < m.size) ∧
    (∀ b, m.read8 a = .ok b → b = lookupCell a m.cells) ∧
    (¬ a < m.size → m.read8 a = .error .outOfBoundsAccess) ∧
    (m.size = 0 → m.read8 a = .error .outOfBoundsAccess)

/-- 20_memory.md R40: four byte reads composed little-endian by shift and OR, all four in bounds or an error. -/
def Obligations.FourByteReadComposesLittleEndian : Prop :=
  ∀ (m : Memory) (a : Nat),
    m.read32 a =
      if a + 3 < m.size then
        .ok ((lookupCell a m.cells).setWidth 32 ||| ((lookupCell (a + 1) m.cells).setWidth 32 <<< 8) |||
          ((lookupCell (a + 2) m.cells).setWidth 32 <<< 16) ||| ((lookupCell (a + 3) m.cells).setWidth 32 <<< 24))
      else .error .outOfBoundsAccess

/-- 20_memory.md R42 as a number: the byte at the lowest address is the least significant. -/
def Obligations.ComposedWordHasTheLittleEndianValue : Prop :=
  ∀ b0 b1 b2 b3 : Byte,
    (composeLE b0 b1 b2 b3).toNat = b0.toNat + 2 ^ 8 * b1.toNat + 2 ^ 16 * b2.toNat + 2 ^ 24 * b3.toNat

/-- Memories in canonical form that read alike everywhere are equal data. The form is the model's choice (log 12). -/
def Obligations.EqualReadsGiveEqualMemories : Prop :=
  ∀ m m' : Memory, m.wf → m'.wf → m.size = m'.size → (∀ a, m.read8 a = m'.read8 a) → m = m'

/-- 20_memory.md R35: memory is not written during a run, so every read of a run returns the reset content. -/
def Obligations.MemoryHoldsTheResetContentForTheWholeRun : Prop :=
  ∀ (p : Params) (s t : State) (k : Nat), construct p = .next s → Sys2Proof.core.run k s = .next t →
    t.mem = s.mem ∧
    (∀ (a : Nat) (h : a < p.image.length), t.mem.read8 a = .ok p.image[a]) ∧
    (∀ a, p.image.length ≤ a → a < p.memSize → t.mem.read8 a = .ok 0)

/-! ### Encoding, dispatch and decoding -/

/-- 30_encoding.md R58: the dispatch table, entry by entry. -/
def Obligations.DispatchTableContents : Prop :=
  dispatch 0xB8 = .movImm32 0 ∧ dispatch 0xB9 = .movImm32 1 ∧ dispatch 0xBA = .movImm32 2 ∧
  dispatch 0xBB = .movImm32 3 ∧ dispatch 0xBC = .movImm32 4 ∧ dispatch 0xBD = .movImm32 5 ∧
  dispatch 0xBE = .movImm32 6 ∧ dispatch 0xBF = .movImm32 7 ∧ dispatch 0xEB = .jmpRel8 ∧
  (∀ b : Byte, b ∉ ([0xB8, 0xB9, 0xBA, 0xBB, 0xBC, 0xBD, 0xBE, 0xBF, 0xEB] : List Byte) → dispatch b = .absent) ∧
  ((List.range 256).filter fun n => dispatch (BitVec.ofNat 8 n) = .absent).length = 247

/-- 30_encoding.md R59: the register index is `opcode - 0xB8`, which is opcode[2:0], on 0xB8 to 0xBF and on no other
byte. -/
def Obligations.RegisterIndexFromOpcode : Prop :=
  ∀ (op : Byte) (r : GprIndex),
    dispatch op = .movImm32 r ↔
      0xB8 ≤ op.toNat ∧ op.toNat ≤ 0xBF ∧ r.val = op.toNat - 0xB8 ∧ r.val = (op.extractLsb' 0 3).toNat

/-- Words written out from the formats MOVI (R55) and JREL8 (R56), and bytes that are no instruction (R67; R66's 0x66; C1's
0xBF). -/
def Obligations.WordsOfTheFormatsDecode : Prop :=
  decode [0b10111000, 0x05, 0x00, 0x00, 0x00] = .ok (.movImm32 0 5, []) ∧
  decode [0b10111111, 0x78, 0x56, 0x34, 0x12] = .ok (.movImm32 7 0x12345678, []) ∧
  decode [0b11101011, 0xF9] = .ok (.jmpRel8 (-7), []) ∧
  decode [0b11101011, 0x80, 0xFF] = .ok (.jmpRel8 (-128), [0xFF]) ∧
  decode [0x66, 0xB8, 0x01, 0x00, 0x00, 0x00] = .error .unimplementedOpcode ∧
  decode [0xB8, 0x01, 0x02, 0x03] = .error .outOfBoundsAccess

/-- Decoding an encoded well-formed instruction gives it back, with every operand value, and leaves the bytes after it. -/
def Obligations.DecodeOfEncode : Prop :=
  ∀ (i : Instr) (rest : List Byte), i.wellFormed = true → decode (encode i ++ rest) = .ok (i, rest)

/-- Each instruction has one encoding: bytes that decode are the encoding of what they decode to. -/
def Obligations.EncodeOfDecode : Prop :=
  ∀ (bs rest : List Byte) (i : Instr), decode bs = .ok (i, rest) → i.wellFormed = true ∧ bs = encode i ++ rest

/-- 30_encoding.md R61: the signed byte read and its range; an error of the byte read passes through. -/
def Obligations.SignedByteRead : Prop :=
  ∀ (src : ByteSource) (k : Nat),
    (∀ b, fetchU8 src k = .ok b →
      fetchS8 src k = .ok (if b.toNat < 128 then (b.toNat : Int) else (b.toNat : Int) - 256)) ∧
    (∀ d, fetchS8 src k = .ok d → -128 ≤ d ∧ d ≤ 127) ∧
    (∀ e, fetchU8 src k = .error e → fetchS8 src k = .error e)

/-- 30_encoding.md R55 and R64: with opcode byte `10111rrr` at IP and four bytes after it, the operands are `rrr` and the
four bytes, the last the most significant, with no extension; five bytes long, and `rrr` is the opcode less 0xB8. -/
def Obligations.MovOperandsFromTheBytesAtIP : Prop :=
  ∀ (s : State) (r : BitVec 3) (b1 b2 b3 b4 : Byte),
    s.mem.read8 s.ip.toNat = .ok ((0b10111 : BitVec 5) ++ r) →
    s.mem.read8 (s.ip.toNat + 1) = .ok b1 → s.mem.read8 (s.ip.toNat + 2) = .ok b2 →
    s.mem.read8 (s.ip.toNat + 3) = .ok b3 → s.mem.read8 (s.ip.toNat + 4) = .ok b4 →
    s.fetchInstr = .ok (.movImm32 ⟨r.toNat, r.isLt⟩ (b4 ++ b3 ++ b2 ++ b1)) ∧
      (Instr.movImm32 ⟨r.toNat, r.isLt⟩ (b4 ++ b3 ++ b2 ++ b1)).size = 5 ∧
      ((0b10111 : BitVec 5) ++ r).toNat - 0xB8 = r.toNat

/-- 30_encoding.md R56 and R65: with opcode byte `11101011` at IP, the instruction is two bytes long, its displacement the next byte
as a signed value, unscaled, and enters the target addition sign-extended to 32 bits, with the 2 of
41_control_transfer.md R72. That the sum is taken modulo 2^32 is decision D3 (10_state.md R22; log 5). -/
def Obligations.JmpOperandFromTheByteAtIP : Prop :=
  ∀ (s : State) (b : Byte),
    s.mem.read8 s.ip.toNat = .ok 0b11101011 → s.mem.read8 (s.ip.toNat + 1) = .ok b →
    s.fetchInstr = .ok (.jmpRel8 b.toInt) ∧ (Instr.jmpRel8 b.toInt).size = 2 ∧ -128 ≤ b.toInt ∧ b.toInt ≤ 127 ∧
      jumpTarget s.ip b.toInt = s.ip + b.signExtend 32 + 2

/-- The fetch of an instruction looks at its own bytes and no other (30_encoding.md R54; 70_reset_and_hazards.md R113), wherever
they stand (R70); an absent opcode is found from its one byte (R67). -/
def Obligations.FetchLooksAtTheInstructionBytesOnly : Prop :=
  ∀ s s' : State,
    (∀ i, s.fetchInstr = .ok i →
      (∀ k, k < i.size → s'.mem.read8 (s'.ip.toNat + k) = s.mem.read8 (s.ip.toNat + k)) →
      s'.fetchInstr = .ok i) ∧
    (s.fetchInstr = .error .unimplementedOpcode →
      s'.mem.read8 s'.ip.toNat = s.mem.read8 s.ip.toNat →
      s'.fetchInstr = .error .unimplementedOpcode)

/-! ### The two instructions -/

/-- `MOV r32, imm32` completes from every state with its effect and its frame (40_data_movement.md R71). That IP is taken modulo
2^32 is decision D3 (log 5). -/
def Obligations.MovCompletesWithItsEffectAndFrame : Prop :=
  ∀ (r : GprIndex) (imm : Word) (s : State),
    ∃ t, exec (.movImm32 r imm) s = .next t ∧
      t.readGpr r = imm ∧ (∀ q, q ≠ r → t.readGpr q = s.readGpr q) ∧
      t.ip.toNat = (s.ip.toNat + 5) % 2 ^ 32 ∧ t.flags = s.flags ∧ t.execState = s.execState ∧
      t.mem.size = s.mem.size ∧ ∀ a, t.mem.read8 a = s.mem.read8 a

/-- `JMP rel8` completes from every state, for every displacement, with its effect and its frame (41_control_transfer.md R72).
That IP is taken modulo 2^32 is decision D3 (log 5). -/
def Obligations.JmpCompletesWithItsEffectAndFrame : Prop :=
  ∀ (d : Int) (s : State), -128 ≤ d → d ≤ 127 →
    ∃ t, exec (.jmpRel8 d) s = .next t ∧
      (t.ip.toNat : Int) = ((s.ip.toNat : Int) + d + 2) % 2 ^ 32 ∧
      (∀ q, t.readGpr q = s.readGpr q) ∧ t.flags = s.flags ∧ t.execState = s.execState ∧
      t.mem.size = s.mem.size ∧ ∀ a, t.mem.read8 a = s.mem.read8 a

/-- The displacement of the assembler notation takes a jump at `p` to `target`, where one reaches it
(30_encoding.md R68, decision D10; log 10). -/
def Obligations.AssembledDisplacementReachesItsTarget : Prop :=
  ∀ (s : State) (target : Nat) (d : Int), target < 2 ^ 32 → rel8Of s.ip.toNat target = some d →
    (Instr.jmpRel8 d).wellFormed = true ∧ ∃ t, exec (.jmpRel8 d) s = .next t ∧ t.ip.toNat = target

/-! ### The step -/

/-- When the bytes at IP decode to an instruction, a step is that instruction's meaning followed by the post-execution check
(50_execution_loop.md R75). -/
def Obligations.StepRunsTheDecodedInstruction : Prop :=
  ∀ (s : State) (bs rest : List Byte) (i : Instr), s.execState = .running →
    (∀ (k : Nat) (h : k < bs.length), s.mem.read8 (s.ip.toNat + k) = .ok bs[k]) →
    decode bs = .ok (i, rest) →
    ∃ u, exec i s = .next u ∧
      step s = .next { u with execState :=
        if u.ip = 0 then .haltedNormally else if u.ip.toNat < u.mem.size then .running else .haltedOutOfBounds }

/-- 50_execution_loop.md R79: the post-execution check, the zero test first; it writes nothing but the execution state. -/
def Obligations.PostExecutionCheck : Prop :=
  ∀ (s u : State) (i : Instr), s.execState = .running → s.fetchInstr = .ok i → exec i s = .next u →
    ∃ t, step s = .next t ∧
      (u.ip = 0 → t.execState = .haltedNormally) ∧
      (u.ip ≠ 0 → u.ip.toNat < u.mem.size → t.execState = .running) ∧
      (u.ip ≠ 0 → u.mem.size ≤ u.ip.toNat → t.execState = .haltedOutOfBounds) ∧
      t.mem = u.mem ∧ t.gpr = u.gpr ∧ t.flags = u.flags ∧ t.ip = u.ip

/-- 50_execution_loop.md R76: an opcode fetch outside memory halts, and no other state changes. -/
def Obligations.OpcodeFetchOutsideMemoryHalts : Prop :=
  ∀ s : State, s.execState = .running → s.mem.size ≤ s.ip.toNat →
    step s = .next { s with execState := .haltedOutOfBounds }

/-- 50_execution_loop.md R77: an absent opcode halts, nothing else changes, whatever stands after it or whether anything
does. -/
def Obligations.AbsentOpcodeHalts : Prop :=
  ∀ (s : State) (op : Byte), s.execState = .running → s.mem.read8 s.ip.toNat = .ok op →
    dispatch op = .absent → step s = .next { s with execState := .haltedUnimplemented }

/-- An operand outside memory halts with no write (R71, R72, R78). That nothing is written is decision D4 (log 6). -/
def Obligations.OperandOutsideMemoryHaltsWithoutWrite : Prop :=
  ∀ (s : State) (op : Byte), s.execState = .running → s.mem.read8 s.ip.toNat = .ok op →
    (((∃ r, dispatch op = .movImm32 r) ∧ s.mem.size ≤ s.ip.toNat + 4) ∨
      (dispatch op = .jmpRel8 ∧ s.mem.size ≤ s.ip.toNat + 1)) →
    step s = .next { s with execState := .haltedOutOfBounds }

/-- A step from Running in one formula, written from the pseudocode of 50_execution_loop.md R75 and the order of 60_exceptions.md
R93 with neither decoder nor meanings. Rests on decisions D2 (log 4), D3 (log 5) and D4 (log 6). -/
def Obligations.StepIsTheStagedLoop : Prop :=
  ∀ s : State, s.execState = .running →
    let N := s.mem.size
    let p := s.ip.toNat
    let M := fun k => lookupCell (p + k) s.mem.cells
    let check := fun u : State => { u with execState :=
      if u.ip = 0 then .haltedNormally else if u.ip.toNat < N then .running else .haltedOutOfBounds }
    step s = .next (
      if N ≤ p then { s with execState := .haltedOutOfBounds }
      else if 0xB8 ≤ (M 0).toNat ∧ (M 0).toNat ≤ 0xBF then
        if N ≤ p + 4 then { s with execState := .haltedOutOfBounds }
        else check { s with
          gpr := s.gpr.set (((M 0).toNat - 0xB8) % 8) (M 4 ++ M 3 ++ M 2 ++ M 1) (Nat.mod_lt _ (by decide))
          ip := s.ip + 5 }
      else if (M 0).toNat = 0xEB then
        if N ≤ p + 1 then { s with execState := .haltedOutOfBounds }
        else check { s with ip := s.ip + (M 1).signExtend 32 + 2 }
      else { s with execState := .haltedUnimplemented })

/-! ### Ends of a run -/

/-- 60_exceptions.md R89: a step ends in HaltedUnimplemented exactly when the opcode byte at an in-bounds IP is Absent, and
then nothing else changes. -/
def Obligations.HaltedUnimplementedExactlyOnAbsentOpcode : Prop :=
  ∀ s t : State,
    (step s = .next t ∧ t.execState = .haltedUnimplemented) ↔
    (s.execState = .running ∧ s.ip.toNat < s.mem.size ∧
      dispatch (lookupCell s.ip.toNat s.mem.cells) = .absent ∧
      t = { s with execState := .haltedUnimplemented })

/-- The four cases of 60_exceptions.md R88, and no other. That cases (b) and (c) write nothing is decision D4 (log 6). -/
def Obligations.HaltedOutOfBoundsInExactlyFourCases : Prop :=
  ∀ s t : State,
    (step s = .next t ∧ t.execState = .haltedOutOfBounds) ↔
    (s.execState = .running ∧
      ((t = { s with execState := .haltedOutOfBounds } ∧
          (s.mem.size ≤ s.ip.toNat ∨
           (s.ip.toNat < s.mem.size ∧ s.mem.size ≤ s.ip.toNat + 4 ∧
             ∃ r, dispatch (lookupCell s.ip.toNat s.mem.cells) = .movImm32 r) ∨
           (s.ip.toNat < s.mem.size ∧ s.mem.size ≤ s.ip.toNat + 1 ∧
             dispatch (lookupCell s.ip.toNat s.mem.cells) = .jmpRel8))) ∨
       (∃ i u, s.fetchInstr = .ok i ∧ exec i s = .next u ∧ u.ip ≠ 0 ∧ u.mem.size ≤ u.ip.toNat ∧
          t = { u with execState := .haltedOutOfBounds })))

/-- 50_execution_loop.md R83: HaltedNormally comes only from the post-execution check of a step that executed an operation, and
an IP of 0 before a step is no halt. -/
def Obligations.NormalHaltOnlyAfterAnOperation : Prop :=
  (∀ s t : State, step s = .next t → t.execState = .haltedNormally →
    ∃ i u, s.fetchInstr = .ok i ∧ exec i s = .next u ∧ u.ip = 0 ∧ t = { u with execState := .haltedNormally }) ∧
  (∀ (s : State) (i : Instr), s.execState = .running → s.ip = 0 → s.fetchInstr = .ok i →
    ∃ u t, exec i s = .next u ∧ step s = .next t ∧ t = { u with execState := t.execState }) ∧
  (∀ p : Params, p.inRange → p.initIP = 0 → ∃ s, construct p = .next s ∧ s.ip = 0 ∧ s.execState = .running)

/-- From a Halted state there is no step (50_execution_loop.md R80), and from Running there is one (R74, R75). That a step which
finds an error answers a next state too is the model's choice (log 3). -/
def Obligations.StepExistsExactlyWhileRunning : Prop :=
  ∀ s : State, (∃ t, step s = .next t) ↔ s.execState = .running

/-- What `step` answers in each Halted state: the model's choice on R80, R85 and D15 (log 3). -/
def Obligations.HaltedStepNamesTheEnd : Prop :=
  ∀ s : State,
    (s.execState = .haltedNormally → step s = .refused .haltedNormally) ∧
    (s.execState = .haltedUnimplemented → step s = .fault .unimplementedOpcode) ∧
    (s.execState = .haltedOutOfBounds → step s = .fault .outOfBoundsAccess)

/-- 10_state.md R28: no operation writes the execution state, and a Halted value never changes again. -/
def Obligations.OnlyTheStateMachineWritesTheExecutionState : Prop :=
  (∀ (i : Instr) (s t : State), exec i s = .next t → t.execState = s.execState) ∧
  (∀ s : State, s.execState ≠ .running →
    ∀ (k : Nat) (t : State), Sys2Proof.core.run k s = .next t → t.execState = s.execState)

/-- A run of any length stops exactly when an earlier state of it was halted, and the answer names that halt (50_execution_loop.md
R85, decision D15; the answers are the model's choice, log 3). -/
def Obligations.RunStopsExactlyAtItsHalt : Prop :=
  ∀ (k : Nat) (s : State),
    (∀ f, Sys2Proof.core.run k s = .fault f ↔
      ∃ (j : Nat) (t : State), j < k ∧ Sys2Proof.core.run j s = .next t ∧
        ((t.execState = .haltedUnimplemented ∧ f = Fault.unimplementedOpcode) ∨
         (t.execState = .haltedOutOfBounds ∧ f = Fault.outOfBoundsAccess))) ∧
    (∀ r, Sys2Proof.core.run k s = .refused r ↔
      ∃ (j : Nat) (t : State), j < k ∧ Sys2Proof.core.run j s = .next t ∧ t.endedWell ∧ r = Refusal.haltedNormally)

/-- A jump to itself away from address 0 runs forever: no step count halts it (50_execution_loop.md R82;
41_control_transfer.md R72). -/
def Obligations.SelfJumpRunsForever : Prop :=
  ∀ s : State, s.execState = .running → s.ip ≠ 0 →
    s.mem.read8 s.ip.toNat = .ok 0xEB → s.mem.read8 (s.ip.toNat + 1) = .ok 0xFE →
    (∀ k, Sys2Proof.core.run k s = .next s) ∧ s.safe

/-! ### Invariants and whole-machine rules -/

/-- Every step keeps the invariant: memory's canonical form (the model's choice, log 12), N at most 2^32 (decision D6, log 8),
and the record each halt leaves (60_exceptions.md R91, an inference of the spec; with decision D4, log 6). -/
def Obligations.StepKeepsTheInvariant : Prop :=
  ∀ s t : State, s.Inv → step s = .next t → t.Inv

/-- The invariant holds at reset: the canonical form (the model's choice, log 12) and N at most 2^32 (decision D6, log 8) in the
launch that `State.reset` stands for (the model's choice, log 1). -/
def Obligations.ResetMeetsTheInvariant : Prop := State.reset.Inv

/-- The invariant holds after every construction: the canonical form (the model's choice, log 12) and N at most 2^32
(decision D6, log 8). -/
def Obligations.ConstructionMeetsTheInvariant : Prop :=
  ∀ (p : Params) (s : State), construct p = .next s → s.Inv

/-- 10_state.md R31, an inference of the spec: after a step that stays Running, IP is not 0 and lies in memory. -/
def Obligations.RunningAfterAStepHasAValidIP : Prop :=
  ∀ s t : State, step s = .next t → t.execState = .running → t.ip ≠ 0 ∧ t.ip.toNat < t.mem.size

/-- 10_state.md R25: neither an operation nor the state machine reads or writes FLAGS, so FLAGS holds its reset value for the
whole run. -/
def Obligations.FlagsAreNeitherReadNorWritten : Prop :=
  (∀ (i : Instr) (s t : State) (f : Word), exec i s = .next t →
    t.flags = s.flags ∧ exec i { s with flags := f } = .next { t with flags := f }) ∧
  (∀ (s t : State) (f : Word), step s = .next t →
    t.flags = s.flags ∧ step { s with flags := f } = .next { t with flags := f }) ∧
  (∀ (p : Params) (s t : State) (k : Nat), construct p = .next s → Sys2Proof.core.run k s = .next t → t.flags = 0)

/-- The values in the GPRs and in FLAGS never steer a run (10_state.md R16, R25): started with other values there, the same
number of steps gives the same memory, IP and execution state, and each GPR holds either the same written value or what it
started with. -/
def Obligations.RegisterValuesNeverSteerARun : Prop :=
  ∀ (k : Nat) (s t : State) (g : Vector Word 8) (f : Word), Sys2Proof.core.run k s = .next t →
    ∃ t' : State, Sys2Proof.core.run k (s.withData g f) = .next t' ∧
      t'.mem = t.mem ∧ t'.ip = t.ip ∧ t'.execState = t.execState ∧ t.flags = s.flags ∧ t'.flags = f ∧
      ∀ r : GprIndex, t'.readGpr r = t.readGpr r ∨ (t.readGpr r = s.readGpr r ∧ t'.readGpr r = g[r])

/-! ### Codes and the host's read -/

/-- The codes of the execution state and of the error classes (10_state.md R27, 60_exceptions.md R90): the spec's own choice,
decision D5 (log 7). -/
def Obligations.HaltCodes : Prop :=
  ExecState.running.code = 0 ∧ ExecState.haltedNormally.code = 1 ∧ ExecState.haltedUnimplemented.code = 2 ∧
  ExecState.haltedOutOfBounds.code = 3 ∧ (∀ x y : ExecState, x.code = y.code → x = y) ∧
  ErrorClass.code .outOfBoundsAccess = 3 ∧ ErrorClass.code .unimplementedOpcode = 2

/-- After a halt the host reads memory (R104), every GPR, FLAGS, IP, the execution state and which error occurred
(60_exceptions.md R87, R90, R92), and nothing before (decision D16; log 11). For every step that answers a halted state, from
whichever stage: an error of the fetch stages is named by its class, the out-of-range IP of the post-execution check (R88 case d)
is OutOfBoundsAccess, and the normal end is no error. -/
def Obligations.HostReadsOnlyAfterAHalt : Prop :=
  (∀ s : State, hostView s = none ↔ s.execState = .running) ∧
  (∀ (s : State) (v : HostView), hostView s = some v →
    v.mem = s.mem ∧ v.gpr = s.gpr ∧ v.flags = s.flags ∧ v.ip = s.ip ∧ v.execState = s.execState) ∧
  (∀ s t : State, step s = .next t → t.execState ≠ .running →
    ∃ v, hostView t = some v ∧ v.mem = s.mem ∧
      ((∃ e, s.fetchInstr = .error e ∧ errorOf v.execState = some e) ∨
       (∃ i u, s.fetchInstr = .ok i ∧ exec i s = .next u ∧
         ((u.ip = 0 ∧ v.execState = .haltedNormally ∧ errorOf v.execState = none) ∨
          (u.ip ≠ 0 ∧ u.mem.size ≤ u.ip.toNat ∧ errorOf v.execState = some .outOfBoundsAccess))))) ∧
  errorOf .running = none ∧ errorOf .haltedNormally = none ∧
  errorOf .haltedUnimplemented = some .unimplementedOpcode ∧ errorOf .haltedOutOfBounds = some .outOfBoundsAccess
end

