-- ==== Sys2Proof/Laws/Decode.lean ====
section
/-! SUPPORT. Laws/Decode.lean: what each decoder function can answer, said once. -/

namespace Sys2Proof

/-- A four-byte read that succeeds has read its four bytes (20_memory.md R40). -/
theorem fetchLE32_eq_ok {src : ByteSource} {k : Nat} {w : Word} :
    fetchLE32 src k = .ok w ↔
      ∃ b0 b1 b2 b3, src k = .ok b0 ∧ src (k + 1) = .ok b1 ∧ src (k + 2) = .ok b2 ∧ src (k + 3) = .ok b3 ∧
        w = composeLE b0 b1 b2 b3 := by
  unfold fetchLE32
  cases src k <;> cases src (k + 1) <;> cases src (k + 2) <;> cases src (k + 3) <;> simp [eq_comm]

theorem fetchS8_eq_ok {src : ByteSource} {k : Nat} {d : Int} :
    fetchS8 src k = .ok d ↔ ∃ b, src k = .ok b ∧ d = s8 b := by
  unfold fetchS8 fetchU8
  cases src k <;> simp [eq_comm]

theorem s8_range (b : Byte) : -128 ≤ s8 b ∧ s8 b ≤ 127 := by
  have := b.isLt
  unfold s8
  split <;> omega

/-- The two ways a byte selects an operation (30_encoding.md R58). -/
theorem dispatch_eq_mov {op : Byte} {r : GprIndex} (h : dispatch op = .movImm32 r) :
    0xB8 ≤ op.toNat ∧ op.toNat ≤ 0xBF ∧ r = gprOfOpcode op := by
  unfold dispatch at h
  split at h
  · rename_i hr
    cases h
    exact ⟨hr.1, hr.2, rfl⟩
  · split at h <;> cases h

theorem dispatch_eq_jmp {op : Byte} (h : dispatch op = .jmpRel8) : op = 0xEB := by
  unfold dispatch at h
  split at h
  · cases h
  · split at h
    · rename_i hj
      exact BitVec.eq_of_toNat_eq hj
    · cases h

/-- What a decoding that succeeds has read (R75, stages 1 to 3). -/
theorem decodeFrom_eq_ok {src : ByteSource} {i : Instr} (h : decodeFrom src = .ok i) :
    (∃ op r imm, src 0 = .ok op ∧ dispatch op = .movImm32 r ∧ fetchLE32 src 1 = .ok imm ∧
      i = .movImm32 r imm) ∨
    (∃ op d, src 0 = .ok op ∧ dispatch op = .jmpRel8 ∧ fetchS8 src 1 = .ok d ∧ i = .jmpRel8 d) := by
  unfold decodeFrom fetchU8 at h
  split at h
  · cases h
  · rename_i op hop
    split at h
    · cases h
    · rename_i r hr
      split at h
      · cases h
      · rename_i imm himm
        cases h
        exact .inl ⟨op, r, imm, hop, hr, himm, rfl⟩
    · rename_i hj
      split at h
      · cases h
      · rename_i d hd
        cases h
        exact .inr ⟨op, d, hop, hj, hd, rfl⟩

/-- The decoder's instructions are well formed. -/
theorem decodeFrom_wellFormed {src : ByteSource} {i : Instr} (h : decodeFrom src = .ok i) :
    i.wellFormed = true := by
  rcases decodeFrom_eq_ok h with ⟨_, r, imm, -, -, -, rfl⟩ | ⟨_, d, -, -, hd, rfl⟩
  · rfl
  · obtain ⟨b, -, rfl⟩ := fetchS8_eq_ok.1 hd
    simp [Instr.wellFormed, s8_range b]

/-- The decoder reads at most five bytes, so sources that agree there decode alike. -/
theorem decodeFrom_congr {a b : ByteSource} (h : ∀ k < 5, a k = b k) : decodeFrom a = decodeFrom b := by
  simp only [decodeFrom, fetchU8, fetchLE32, fetchS8, h 0 (by decide), h 1 (by decide), h (1 + 1) (by decide),
    h (1 + 2) (by decide), h (1 + 3) (by decide)]

/-- The MOV block and the register it selects, by opcode byte (30_encoding.md R59). -/
theorem gprOfOpcode_add (r : GprIndex) : gprOfOpcode (0xB8 + BitVec.ofNat 8 r.val) = r := by
  revert r
  decide

end Sys2Proof
end

