-- ==== Sys2Proof/Laws/Memory.lean ====
section
/-! SUPPORT. Laws/Memory.lean: the memory operations keep the canonical form, and a read finds the last byte placed. -/

namespace Sys2Proof.Machine

theorem lookupCell_eq_zero {cs : List Host.Cell} {a : Nat} (h : ∀ c ∈ cs, a < c.1) :
    lookupCell a cs = 0 := by
  induction cs with
  | nil => rfl
  | cons c rest ih =>
    have hc := h c (by simp)
    simp only [lookupCell]
    rw [if_neg (by omega)]
    exact ih fun d hd => h d (by simp [hd])

/-- The cells of an insertion: the old ones at other addresses, and the new one unless it reads 0. -/
theorem mem_insertCell {cs : List Host.Cell} {a : Nat} {b : Byte} {c : Host.Cell}
    (h : c ∈ insertCell a b cs) : (c = (a, b) ∧ b ≠ 0) ∨ c ∈ cs := by
  induction cs with
  | nil =>
    simp only [insertCell, consCell] at h
    split at h <;> simp_all
  | cons d rest ih =>
    obtain ⟨k, v⟩ := d
    simp only [insertCell, consCell] at h
    split at h
    · split at h <;> simp_all
    · split at h
      · split at h <;> simp_all
        rcases h with h | h <;> simp [h]
      · rcases List.mem_cons.1 h with h | h
        · exact .inr (by simp [h])
        · rcases ih h with h | h
          · exact .inl h
          · exact .inr (by simp [h])

theorem insertCell_pairwise {cs : List Host.Cell} (a : Nat) (b : Byte)
    (h : cs.Pairwise (fun x y => x.1 < y.1)) :
    (insertCell a b cs).Pairwise (fun x y => x.1 < y.1) := by
  induction cs with
  | nil =>
    simp only [insertCell, consCell]
    split <;> simp
  | cons d rest ih =>
    obtain ⟨k, v⟩ := d
    obtain ⟨hd, hr⟩ := List.pairwise_cons.1 h
    simp only [insertCell, consCell]
    split
    · split
      · exact h
      · refine List.pairwise_cons.2 ⟨fun c hc => ?_, h⟩
        rcases List.mem_cons.1 hc with rfl | hc
        · assumption
        · have := hd c hc
          simp only at this ⊢
          omega
    · split
      · subst a
        split
        · exact hr
        · exact List.pairwise_cons.2 ⟨fun c hc => hd c hc, hr⟩
      · refine List.pairwise_cons.2 ⟨fun c hc => ?_, ih hr⟩
        rcases mem_insertCell hc with ⟨rfl, -⟩ | hc
        · simp only
          omega
        · exact hd c hc

/-- Read after placement, on cells in the canonical order. -/
theorem lookupCell_insertCell {cs : List Host.Cell} (a : Nat) (b : Byte)
    (h : cs.Pairwise (fun x y => x.1 < y.1)) (a' : Nat) :
    lookupCell a' (insertCell a b cs) = if a' = a then b else lookupCell a' cs := by
  induction cs with
  | nil =>
    by_cases hb : b = 0
    · simp [insertCell, consCell, lookupCell, hb]
    · simp only [insertCell, consCell, if_neg hb, lookupCell]
      simp only [eq_comm]
  | cons d rest ih =>
    obtain ⟨k, v⟩ := d
    obtain ⟨hd, hr⟩ := List.pairwise_cons.1 h
    have hz : ∀ x, x ≤ k → lookupCell x rest = 0 := fun x hx =>
      lookupCell_eq_zero fun c hc => Nat.lt_of_le_of_lt hx (hd c hc)
    simp only [insertCell, consCell]
    split
    · rename_i hlt
      split
      · rename_i hb
        subst hb
        by_cases ha : a' = a
        · subst ha
          simp [lookupCell, hz a' (Nat.le_of_lt hlt), show k ≠ a' by omega]
        · simp [ha]
      · by_cases ha : a' = a
        · simp [lookupCell, ha]
        · simp [lookupCell, ha, Ne.symm ha]
    · split
      · subst a
        split
        · rename_i hb
          subst hb
          by_cases ha : a' = k
          · simp [ha, hz k (Nat.le_refl k)]
          · simp [lookupCell, ha, Ne.symm ha]
        · by_cases ha : a' = k
          · simp [lookupCell, ha]
          · simp [lookupCell, ha, Ne.symm ha]
      · rename_i hlt hne
        simp only [lookupCell, ih hr]
        by_cases hk : k = a'
        · subst hk
          simp [Ne.symm hne]
        · simp [hk]

@[simp] theorem place_size (m : Memory) (a : Nat) (b : Byte) : (m.place a b).size = m.size := by
  unfold Memory.place
  split <;> rfl

@[simp] theorem placeAll_size (m : Memory) (a : Nat) (bs : List Byte) :
    (m.placeAll a bs).size = m.size := by
  induction bs generalizing m a with
  | nil => rfl
  | cons b rest ih => simp [Memory.placeAll, ih]

/-- The one operation that changes memory keeps its canonical form. -/
theorem place_wf {m : Memory} (h : m.wf) (a : Nat) (b : Byte) : (m.place a b).wf := by
  unfold Memory.place
  split
  · rename_i ha
    refine ⟨insertCell_pairwise a b h.1, fun c hc => ?_⟩
    rcases mem_insertCell hc with ⟨rfl, hb⟩ | hc
    · exact ⟨ha, hb⟩
    · exact h.2 c hc
  · exact h

theorem placeAll_wf {m : Memory} (h : m.wf) (a : Nat) (bs : List Byte) : (m.placeAll a bs).wf := by
  induction bs generalizing m a with
  | nil => exact h
  | cons b rest ih => exact ih (place_wf h a b) (a + 1)

theorem read8_ok {m : Memory} {a : Nat} (h : a < m.size) : m.read8 a = .ok (lookupCell a m.cells) := by
  simp [Memory.read8, h]

theorem read8_error {m : Memory} {a : Nat} (h : m.size ≤ a) :
    m.read8 a = .error .outOfBoundsAccess := by
  simp [Memory.read8, Nat.not_lt.2 h]

theorem read8_place_same {m : Memory} (h : m.wf) {a : Nat} (ha : a < m.size) (b : Byte) :
    (m.place a b).read8 a = .ok b := by
  simp [Memory.read8, Memory.place, ha, lookupCell_insertCell a b h.1]

theorem read8_place_other {m : Memory} (h : m.wf) {a a' : Nat} (hne : a' ≠ a) (b : Byte) :
    (m.place a b).read8 a' = m.read8 a' := by
  unfold Memory.place
  split
  · simp [Memory.read8, lookupCell_insertCell a b h.1, hne]
  · rfl

/-- Addresses below the placement are left alone. -/
theorem read8_placeAll_below {m : Memory} (h : m.wf) {a a' : Nat} (hlt : a' < a) (bs : List Byte) :
    (m.placeAll a bs).read8 a' = m.read8 a' := by
  induction bs generalizing m a with
  | nil => rfl
  | cons b rest ih =>
    rw [Memory.placeAll, ih (place_wf h a b) (by omega), read8_place_other h (by omega)]

/-- A placement that fits in memory is read back byte by byte. -/
theorem read8_placeAll {m : Memory} (h : m.wf) {a : Nat} {bs : List Byte} {k : Nat} (hk : k < bs.length)
    (hfit : a + bs.length ≤ m.size) : (m.placeAll a bs).read8 (a + k) = .ok bs[k] := by
  induction bs generalizing m a k with
  | nil => simp at hk
  | cons b rest ih =>
    simp only [List.length_cons] at hk hfit
    cases k with
    | zero =>
      simp only [Memory.placeAll, Nat.add_zero, List.getElem_cons_zero]
      rw [read8_placeAll_below (place_wf h a b) (by omega), read8_place_same h (by omega)]
    | succ k =>
      rw [Memory.placeAll, show a + (k + 1) = a + 1 + k by omega,
        ih (place_wf h a b) (by omega) (by simp only [place_size]; omega)]
      simp

/-- A four-byte read fails for one reason only (20_memory.md R40). -/
theorem fetchLE32_source_error {m : Memory} {a k : Nat} {e : ErrorClass}
    (h : fetchLE32 (m.source a) k = .error e) : e = .outOfBoundsAccess ∧ m.size ≤ a + k + 3 := by
  unfold fetchLE32 Memory.source at h
  by_cases h3 : a + (k + 3) < m.size
  · simp [read8_ok (show a + k < m.size by omega), read8_ok (show a + (k + 1) < m.size by omega),
      read8_ok (show a + (k + 2) < m.size by omega), read8_ok h3] at h
  · refine ⟨?_, by omega⟩
    rw [read8_error (Nat.not_lt.1 h3)] at h
    simp only [Memory.read8] at h
    split at h
    · rename_i hq
      split at hq <;> cases hq
      cases h
      rfl
    · split at h
      · rename_i hq
        split at hq <;> cases hq
        cases h
        rfl
      · split at h
        · rename_i hq
          split at hq <;> cases hq
          cases h
          rfl
        · cases h
          rfl

/-- A displacement read fails for one reason only (30_encoding.md R61). -/
theorem fetchS8_source_error {m : Memory} {a k : Nat} {e : ErrorClass}
    (h : fetchS8 (m.source a) k = .error e) : e = .outOfBoundsAccess ∧ m.size ≤ a + k := by
  unfold fetchS8 fetchU8 Memory.source at h
  by_cases hk : a + k < m.size
  · simp [read8_ok hk] at h
  · simp [read8_error (Nat.not_lt.1 hk)] at h
    exact ⟨h.symm, by omega⟩

end Sys2Proof.Machine
end

