-- ==== Sys2Proof/Laws/State.lean ====
section
/-! SUPPORT. Laws/State.lean: one lemma per field per update of State, and the register file's laws. -/

namespace Sys2Proof.Machine

variable (s : State) (r : GprIndex) (v : Word) (n : Nat) (e : ErrorClass) (g : Vector Word 8) (f : Word)

@[simp] theorem writeGpr_mem : (s.writeGpr r v).mem = s.mem := rfl
@[simp] theorem writeGpr_gpr : (s.writeGpr r v).gpr = s.gpr.set r v := rfl
@[simp] theorem writeGpr_flags : (s.writeGpr r v).flags = s.flags := rfl
@[simp] theorem writeGpr_ip : (s.writeGpr r v).ip = s.ip := rfl
@[simp] theorem writeGpr_execState : (s.writeGpr r v).execState = s.execState := rfl

@[simp] theorem writeIP_mem : (s.writeIP v).mem = s.mem := rfl
@[simp] theorem writeIP_gpr : (s.writeIP v).gpr = s.gpr := rfl
@[simp] theorem writeIP_flags : (s.writeIP v).flags = s.flags := rfl
@[simp] theorem writeIP_ip : (s.writeIP v).ip = v := rfl
@[simp] theorem writeIP_execState : (s.writeIP v).execState = s.execState := rfl

@[simp] theorem advanceIP_mem : (s.advanceIP n).mem = s.mem := rfl
@[simp] theorem advanceIP_gpr : (s.advanceIP n).gpr = s.gpr := rfl
@[simp] theorem advanceIP_flags : (s.advanceIP n).flags = s.flags := rfl
@[simp] theorem advanceIP_ip : (s.advanceIP n).ip = s.ip + BitVec.ofNat 32 n := rfl
@[simp] theorem advanceIP_execState : (s.advanceIP n).execState = s.execState := rfl

@[simp] theorem raise_mem : (raise e s).mem = s.mem := rfl
@[simp] theorem raise_gpr : (raise e s).gpr = s.gpr := rfl
@[simp] theorem raise_flags : (raise e s).flags = s.flags := rfl
@[simp] theorem raise_ip : (raise e s).ip = s.ip := rfl
@[simp] theorem raise_execState : (raise e s).execState = ErrorClass.haltState e := rfl

@[simp] theorem postCheck_mem : (postCheck s).mem = s.mem := rfl
@[simp] theorem postCheck_gpr : (postCheck s).gpr = s.gpr := rfl
@[simp] theorem postCheck_flags : (postCheck s).flags = s.flags := rfl
@[simp] theorem postCheck_ip : (postCheck s).ip = s.ip := rfl
@[simp] theorem postCheck_execState : (postCheck s).execState = postState s := rfl

@[simp] theorem withData_mem : (s.withData g f).mem = s.mem := rfl
@[simp] theorem withData_gpr : (s.withData g f).gpr = g := rfl
@[simp] theorem withData_flags : (s.withData g f).flags = f := rfl
@[simp] theorem withData_ip : (s.withData g f).ip = s.ip := rfl
@[simp] theorem withData_execState : (s.withData g f).execState = s.execState := rfl

/-- The register file's one law: a read finds the last write to that register, and no other. -/
@[simp] theorem readGpr_writeGpr (q : GprIndex) :
    (s.writeGpr r v).readGpr q = if r = q then v else s.readGpr q := by
  simp [State.readGpr, Vector.getElem_set, Fin.ext_iff]

@[simp] theorem readGpr_advanceIP : (s.advanceIP n).readGpr r = s.readGpr r := rfl
@[simp] theorem readGpr_writeIP : (s.writeIP v).readGpr r = s.readGpr r := rfl

/-- An error's halt state names the class. -/
theorem errorOf_haltState : errorOf (ErrorClass.haltState e) = some e := by cases e <;> rfl

theorem haltState_ne_running : ErrorClass.haltState e ≠ .running := by cases e <;> decide

/-- What the instruction fetch depends on: memory and IP alone (30_encoding.md R63). -/
theorem fetchInstr_congr {s t : State} (hm : t.mem = s.mem) (hi : t.ip = s.ip) :
    t.fetchInstr = s.fetchInstr := by
  simp [State.fetchInstr, State.source, hm, hi]

/-- What the post-execution check finds depends on memory's size and IP alone. -/
theorem postState_congr {s t : State} (hm : t.mem = s.mem) (hi : t.ip = s.ip) :
    postState t = postState s := by
  simp [postState, hm, hi]

/-- The three things the post-execution check can find, and no other (50_execution_loop.md R79). -/
theorem postState_cases (s : State) :
    (s.ip = 0 ∧ postState s = .haltedNormally) ∨
    (s.ip ≠ 0 ∧ s.ip.toNat < s.mem.size ∧ postState s = .running) ∨
    (s.ip ≠ 0 ∧ s.mem.size ≤ s.ip.toNat ∧ postState s = .haltedOutOfBounds) := by
  unfold postState
  by_cases h0 : s.ip = 0
  · exact .inl ⟨h0, if_pos h0⟩
  · by_cases hn : s.ip.toNat < s.mem.size
    · exact .inr (.inl ⟨h0, hn, by rw [if_neg h0, if_pos hn]⟩)
    · exact .inr (.inr ⟨h0, Nat.not_lt.1 hn, by rw [if_neg h0, if_neg hn]⟩)

/-- The host reads nothing of a running machine. -/
theorem hostView_running {s : State} (h : s.execState = .running) : hostView s = none := if_pos h

/-- The host reads everything of a halted one. -/
theorem hostView_halted {s : State} (h : s.execState ≠ .running) :
    hostView s = some { mem := s.mem, gpr := s.gpr, flags := s.flags, ip := s.ip, execState := s.execState } :=
  if_neg h

end Sys2Proof.Machine
end

