-- ==== Sys2Proof/Laws/Step.lean ====
section
/-! SUPPORT. Laws/Step.lean: what an instruction fetch, an operation and a step can answer, said once. -/

namespace Sys2Proof.Machine

/-- Every operation answers a next state that keeps memory, FLAGS and the execution state. -/
theorem exec_cases (i : Instr) (s : State) :
    ∃ t, exec i s = .next t ∧ t.mem = s.mem ∧ t.flags = s.flags ∧ t.execState = s.execState := by
  cases i with
  | movImm32 r imm => exact ⟨_, rfl, rfl, rfl, rfl⟩
  | jmpRel8 d => exact ⟨_, rfl, rfl, rfl, rfl⟩

theorem step_error {s : State} (hr : s.execState = .running) {e : ErrorClass}
    (hf : s.fetchInstr = .error e) : step s = .next (raise e s) := by
  simp [step, haltedAnswer, hr, hf]

theorem step_ok {s : State} (hr : s.execState = .running) {i : Instr} (hf : s.fetchInstr = .ok i) :
    step s = afterOperation (exec i s) := by
  simp [step, haltedAnswer, hr, hf]

/-- A step that answers a next state started Running, and either took an error or ran one operation and the
post-execution check. -/
theorem step_cases {s t : State} (h : step s = .next t) :
    s.execState = .running ∧
    ((∃ e, s.fetchInstr = .error e ∧ t = raise e s) ∨
     (∃ i u, s.fetchInstr = .ok i ∧ exec i s = .next u ∧ t = postCheck u)) := by
  have hr : s.execState = .running := by
    cases hs : s.execState <;> simp [step, haltedAnswer, hs] at h ⊢
  refine ⟨hr, ?_⟩
  cases hf : s.fetchInstr with
  | error e =>
    rw [step_error hr hf] at h
    injection h with h
    exact .inl ⟨e, rfl, h.symm⟩
  | ok i =>
    obtain ⟨u, hu, -⟩ := exec_cases i s
    rw [step_ok hr hf, hu] at h
    injection h with h
    exact .inr ⟨i, u, rfl, hu, h.symm⟩

/-- The three ways an instruction fetch fails (60_exceptions.md R88 a to c, R89). -/
theorem fetchInstr_error {s : State} {e : ErrorClass} (h : s.fetchInstr = .error e) :
    (s.mem.size ≤ s.ip.toNat ∧ e = .outOfBoundsAccess) ∨
    (s.ip.toNat < s.mem.size ∧ dispatch (lookupCell s.ip.toNat s.mem.cells) = .absent ∧
      e = .unimplementedOpcode) ∨
    (s.ip.toNat < s.mem.size ∧ s.mem.size ≤ s.ip.toNat + 4 ∧ e = .outOfBoundsAccess ∧
      ∃ r, dispatch (lookupCell s.ip.toNat s.mem.cells) = .movImm32 r) ∨
    (s.ip.toNat < s.mem.size ∧ s.mem.size ≤ s.ip.toNat + 1 ∧ e = .outOfBoundsAccess ∧
      dispatch (lookupCell s.ip.toNat s.mem.cells) = .jmpRel8) := by
  unfold State.fetchInstr State.source decodeFrom at h
  by_cases hip : s.ip.toNat < s.mem.size
  · simp only [fetchU8, Memory.source, Nat.add_zero, read8_ok hip] at h
    split at h
    · rename_i hd
      cases h
      exact .inr (.inl ⟨hip, hd, rfl⟩)
    · rename_i r hd
      split at h
      · rename_i hq
        cases h
        obtain ⟨he, hn⟩ := fetchLE32_source_error hq
        exact .inr (.inr (.inl ⟨hip, by omega, he, r, hd⟩))
      · cases h
    · rename_i hd
      split at h
      · rename_i hq
        cases h
        obtain ⟨he, hn⟩ := fetchS8_source_error hq
        exact .inr (.inr (.inr ⟨hip, hn, he, hd⟩))
      · cases h
  · simp only [fetchU8, Memory.source, Nat.add_zero, read8_error (Nat.not_lt.1 hip)] at h
    cases h
    exact .inl ⟨by omega, rfl⟩

end Sys2Proof.Machine
end

