-- ==== Sys2Proof/Laws/FetchWord.lean ====
section
/-! SUPPORT. Laws/FetchWord.lean: `withFetchWord` places exactly the instruction the decoder reads from the word. -/

namespace Sys2Proof.Machine

theorem tableBytes_length (nbits w : Nat) : (tableBytes nbits w).length = 5 := rfl

/-- The next step fetches the instruction the word stands for. -/
theorem fetchInstr_withFetchWord {s : State} (hm : s.mem.wf) (hfit : s.ip.toNat + 5 ≤ s.mem.size)
    {nbits w : Nat} {i : Instr} (hd : decodeTableWord nbits w = some i) :
    (s.withFetchWord nbits w).fetchInstr = .ok i := by
  have hsrc : (s.withFetchWord nbits w).fetchInstr = decodeFrom (listSource (tableBytes nbits w)) := by
    refine decodeFrom_congr fun k hk => ?_
    have := read8_placeAll (a := s.ip.toNat) (bs := tableBytes nbits w) (k := k) hm hk hfit
    simp only [State.source, Memory.source, State.withFetchWord, this, listSource]
    rw [List.getElem?_eq_getElem hk]
  rw [hsrc]
  unfold decodeTableWord decode at hd
  cases hdec : decodeFrom (listSource (tableBytes nbits w)) <;> simp_all

/-- So the next step runs it. -/
theorem step_withFetchWord {s : State} (hm : s.mem.wf) (hfit : s.ip.toNat + 5 ≤ s.mem.size)
    {nbits w : Nat} {i : Instr} (hd : decodeTableWord nbits w = some i) :
    step (s.withFetchWord nbits w) = afterOperation (exec i (s.withFetchWord nbits w)) :=
  step_ok rfl (fetchInstr_withFetchWord hm hfit hd)

end Sys2Proof.Machine
end

