-- ==== Sys2Proof/Laws/PerInstr.lean ====
section
/-! SUPPORT. Laws/PerInstr.lean: statements made per instruction, one lemma per constructor of `Instr`. -/

/-- The shape of an encoding: as many bytes as the instruction is long, the first of them an opcode that the dispatch
table implements (30_encoding.md R54, R58). -/
def Sys2Proof.Laws.EncodedShape.Statement (i : Sys2Proof.Instr) : Prop :=
  (Sys2Proof.encode i).length = i.size ∧
    ∃ op, (Sys2Proof.encode i).head? = some op ∧ Sys2Proof.dispatch op ≠ Sys2Proof.Entry.absent

theorem Sys2Proof.Laws.EncodedShape.movImm32 (r : Sys2Proof.GprIndex) (imm : Sys2Proof.Word) :
    Sys2Proof.Laws.EncodedShape.Statement (.movImm32 r imm) := by
  refine ⟨rfl, _, rfl, ?_⟩
  revert r
  decide

theorem Sys2Proof.Laws.EncodedShape.jmpRel8 (d : Int) :
    Sys2Proof.Laws.EncodedShape.Statement (.jmpRel8 d) :=
  ⟨rfl, _, rfl, by decide⟩
end

