-- ==== Sys2Proof/Tests/Slice0.lean ====
section
/-! SUPPORT. Tests/Slice0.lean: the smoke tests of WellFormed, the spec's vectors (95_test_vectors.md, named in each docstring),
and for each statement with hypotheses a state that meets them. Expected results are the spec's or worked out from its rules. -/

namespace Sys2Proof.Tests

open Sys2Proof Sys2Proof.Machine

/-- A Running machine with `n` bytes of memory, IP at `ip` and the bytes `bs` there; GPRs as at a default reset. -/
def machineAt (n : Nat) (ip : Word) (bs : List Byte) : State :=
  { mem := Memory.placeAll { size := n, cells := [] } ip.toNat bs
    gpr := State.reset.gpr, flags := 0, ip := ip, execState := .running }

/-- Whether a step answers a next state with this IP and execution state in which the property holds. -/
def ends (s : State) (ip : Word) (e : ExecState) (p : State → Bool) : Bool :=
  match step s with
  | .next t => t.ip == ip && decide (t.execState = e) && p t && decide (t.mem = s.mem) && t.flags == s.flags
  | .fault _ => false
  | .refused _ => false

/-- No GPR changed. -/
def sameGprs (s t : State) : Bool := decide (t.gpr = s.gpr)

/-! ### WellFormed -/

/-- R65: 127 and -128 are displacements. -/
theorem test_wellFormed_ends : (Instr.jmpRel8 127).wellFormed = true ∧ (Instr.jmpRel8 (-128)).wellFormed = true := by decide
/-- R65: 128 is none. -/
theorem test_wellFormed_refuses_128 : (Instr.jmpRel8 128).wellFormed = false := by decide
/-- R65: -129 is none. -/
theorem test_wellFormed_refuses_minus_129 : (Instr.jmpRel8 (-129)).wellFormed = false := by decide

/-! ### Decoding: words written out bit by bit from the formats R55 and R56 -/

/-- R55 with rrr = 010 and the immediate 0x44332211 (bytes of VM7). -/
theorem test_decode_mov : decode [0b10111010, 0b00010001, 0b00100010, 0b00110011, 0b01000100] =
    .ok (.movImm32 2 0x44332211, []) := by decide
/-- R56 with d = 11111001, which is -7 (VD9). -/
theorem test_decode_jmp : decode [0b11101011, 0b11111001] = .ok (.jmpRel8 (-7), []) := by decide
/-- The row words of the opcode table, operands 0. -/
theorem test_decodeTableWord : decodeTableWord 40 0xB8 = some (.movImm32 0 0) ∧ decodeTableWord 8 0xBF = some (.movImm32 7 0) ∧
    decodeTableWord 16 0xF9EB = some (.jmpRel8 (-7)) ∧ decodeTableWord 8 0xEB = some (.jmpRel8 0) ∧
    decodeTableWord 8 0x90 = none := by decide
/-- VX3, VX4 and VX5: absent bytes. -/
theorem test_dispatch_absent : ([0xB7, 0xC0, 0xEA, 0xEC, 0x00, 0x0F, 0x66, 0x90, 0xC3, 0xCC, 0xE8, 0xE9, 0xF4, 0xFF] : List Byte).all
    (fun b => dispatch b = .absent) = true := by decide
/-- R68 on programs P1 and P3: source and bytes. -/
theorem test_assemble_P1 : assemble [.instr (.movImm32 accumulator 5), .instr (.jmpRel8 (-7))] =
    [0xB8, 0x05, 0x00, 0x00, 0x00, 0xEB, 0xF9] := by decide
theorem test_assemble_P3 : assemble [.instr (.movImm32 counter 1), .instr (.movImm32 sourceIndex 0x80000000), .byte 0x90] =
    [0xB9, 0x01, 0x00, 0x00, 0x00, 0xBE, 0x00, 0x00, 0x00, 0x80, 0x90] := by decide
/-- P2's last jump: from 0x13 to 0 is -21. -/
theorem test_rel8 : rel8Of 0x13 0 = some (-21) ∧ rel8Of 0 130 = none := by decide
/-- R68's text of an instruction, with the labels of R13. -/
theorem test_text : instrText (.movImm32 4 4096) = "MOV ESP, 4096" ∧ instrText (.jmpRel8 (-7)) = "JMP -7" := by decide

/-! ### Reads -/

/-- VD1, VD4, VD10 and VD11. -/
theorem test_read32 : (machineAt 256 0 [0x78, 0x56, 0x34, 0x12]).mem.read32 0 = .ok 0x12345678 ∧
    (machineAt 256 0 [0x00, 0x00, 0x00, 0x80]).mem.read32 0 = .ok 0x80000000 ∧
    (machineAt 4 0 [1, 2, 3, 4]).mem.read32 0 = .ok 0x04030201 ∧
    (machineAt 4 0 [1, 2, 3, 4]).mem.read32 1 = .error .outOfBoundsAccess := by decide
/-- VD5 to VD9. -/
theorem test_s8 : s8 0xFF = -1 ∧ s8 0x80 = -128 ∧ s8 0x7F = 127 ∧ s8 0 = 0 ∧ s8 0xF9 = -7 ∧ s8 0xFE = -2 := by decide
/-- VD14: no wrap of the fetch address. -/
theorem test_read_top : (machineAt 4294967296 0xFFFFFFFF [0xAB]).source 0 = .ok 0xAB ∧
    (machineAt 4294967296 0xFFFFFFFF [0xAB]).source 1 = .error .outOfBoundsAccess := by decide
/-- VR2: the image is in memory and 0 beyond it; a placed 0 leaves no cell. -/
theorem test_image : (constructed { memSize := 64, initIP := 0x10, initSP := 0, image := [0xAA, 0xBB, 0] }).mem =
    { size := 64, cells := [(0, 0xAA), (1, 0xBB)] } := by decide

/-! ### Steps -/

/-- VM4. -/
theorem test_mov_VM4 : ends (machineAt 256 0 [0xBB, 0xFF, 0xFF, 0xFF, 0xFF]) 5 .running
    (fun t => t.gpr.toList == [0, 0, 0, 0xFFFFFFFF, 0x7C00, 0, 0, 0]) = true := by decide
/-- VM10: IP wraps to 0 at the top of a 4 GiB memory. -/
theorem test_mov_VM10 : ends (machineAt 4294967296 0xFFFFFFFB [0xB9, 0xAA, 0xBB, 0xCC, 0xDD]) 0 .haltedNormally
    (fun t => t.readGpr counter == 0xDDCCBBAA) = true := by decide
/-- VM8: the write stands when the post-execution check halts. -/
theorem test_postCheck_VM8 : ends (machineAt 5 0 [0xB8, 1, 2, 3, 4]) 5 .haltedOutOfBounds
    (fun t => t.readGpr accumulator == 0x04030201) = true := by decide
/-- VM9: no write when an operand is out of bounds. -/
theorem test_operand_VM9 : ends (machineAt 4 0 [0xB8, 1, 2, 3]) 0 .haltedOutOfBounds (sameGprs State.reset) = true := by decide
/-- VJ4: a backward jump. -/
theorem test_jmp_VJ4 : ends (machineAt 256 0x80 [0xEB, 0x80]) 0x02 .running (sameGprs State.reset) = true := by decide
/-- VJ9: a target below 0. -/
theorem test_jmp_VJ9 : ends (machineAt 256 0 [0xEB, 0x80]) 0xFFFFFF82 .haltedOutOfBounds (sameGprs State.reset) = true := by decide
/-- VJ1 and VJ7: the target 0 ends the run. -/
theorem test_postCheck_VJ1 : ends (machineAt 256 5 [0xEB, 0xF9]) 0 .haltedNormally (sameGprs State.reset) = true ∧
    ends (machineAt 256 0 [0xEB, 0xFE]) 0 .haltedNormally (sameGprs State.reset) = true := by decide
/-- VE2, VE4 and VE9. -/
theorem test_halts_VE : ends (machineAt 0 0 []) 0 .haltedOutOfBounds (sameGprs State.reset) = true ∧
    ends (machineAt 256 0x40 [0xF4]) 0x40 .haltedUnimplemented (sameGprs State.reset) = true ∧
    ends (machineAt 256 0xFF [0xB8]) 0xFF .haltedOutOfBounds (sameGprs State.reset) = true := by decide
/-- VE6: the reset state with nothing placed. -/
theorem test_reset_VE6 : ends State.reset 0 .haltedUnimplemented (sameGprs State.reset) = true := by decide
/-- The host's placement on the reset state: the step runs the row's instruction. -/
theorem test_withFetchWord : ends (State.reset.withFetchWord 40 0x12345678BF) 5 .running
    (fun t => t.readGpr destinationIndex == 0x12345678) = true ∧
    ends (State.reset.withFetchWord 8 0xEB) 2 .running (sameGprs State.reset) = true := by decide

/-- R104: the host reads memory after a halt. -/
theorem test_hostView_memory :
    (hostView { machineAt 4 1 [0x90] with execState := .haltedUnimplemented }).map HostView.mem =
      some { size := 4, cells := [(1, 0x90)] } := by decide

/-! ### The hypotheses of the statements are met -/

theorem witness_ConstructionSetsEveryResetValue :
    Params.inRange { memSize := 512, initIP := 0x10, initSP := 1, image := List.replicate 512 0xAA } := by
  simp only [Params.inRange, List.length_replicate]
  decide
theorem witness_LaunchOutOfRangeIsRefused :
    ¬ (4294967297 ≤ 2 ^ 32 ∧ ([] : List Byte).length ≤ 512 ∧ ([] : List Byte).length ≤ 4294967297) ∧
    ¬ (1 ≤ 2 ^ 32 ∧ ([1, 2] : List Byte).length ≤ 512 ∧ ([1, 2] : List Byte).length ≤ 1) ∧
    ¬ (4096 ≤ 2 ^ 32 ∧ (List.replicate 513 (1 : Byte)).length ≤ 512 ∧ (List.replicate 513 (1 : Byte)).length ≤ 4096) := by
  simp only [List.length_replicate]
  decide
theorem witness_ByteReadIsBoundsChecked :
    ({ size := 4, cells := [(3, 7)] } : Memory).read8 3 = .ok 7 ∧ ¬ 4 < ({ size := 4, cells := [(3, 7)] } : Memory).size ∧
    ({ size := 0, cells := [] } : Memory).size = 0 := by decide
theorem witness_EqualReadsGiveEqualMemories :
    ({ size := 4, cells := [(1, 7), (3, 9)] } : Memory).wf ∧
    ∀ a, ({ size := 4, cells := [(1, 7), (3, 9)] } : Memory).read8 a = (({ size := 4, cells := [(1, 7)] } : Memory).place 3 9).read8 a :=
  ⟨by decide, fun _ => rfl⟩
theorem witness_MemoryHoldsTheResetContentForTheWholeRun :
    ∃ s t, construct { memSize := 16, initIP := 0, initSP := 0, image := [0xEB, 0x00, 0xEB, 0xFE] } = .next s ∧
      Sys2Proof.core.run 3 s = .next t := ⟨_, _, rfl, rfl⟩
theorem witness_DispatchTableContents :
    (0xC0 : Byte) ∉ ([0xB8, 0xB9, 0xBA, 0xBB, 0xBC, 0xBD, 0xBE, 0xBF, 0xEB] : List Byte) := by decide
theorem witness_DecodeOfEncode :
    (Instr.movImm32 7 0xFFFFFFFF).wellFormed = true ∧ (Instr.jmpRel8 (-128)).wellFormed = true := by decide
theorem witness_EncodeOfDecode :
    decode [0xBF, 0x78, 0x56, 0x34, 0x12, 0x00] = .ok (.movImm32 7 0x12345678, [0x00]) ∧
    decode [0xEB, 0x80] = .ok (.jmpRel8 (-128), []) := by decide
theorem witness_SignedByteRead :
    fetchU8 (listSource [0x7F, 0x80]) 0 = .ok 0x7F ∧ fetchU8 (listSource [0x7F, 0x80]) 1 = .ok 0x80 ∧
    fetchS8 (listSource [0x7F, 0x80]) 1 = .ok (-128) ∧
    fetchU8 (listSource [0x7F, 0x80]) 2 = .error .outOfBoundsAccess := by decide
/-- VM7, with the last operand byte at N - 2, and the same with it at N - 1. -/
theorem witness_MovOperandsFromTheBytesAtIP :
    (machineAt 15 10 [0xBA, 0x11, 0x22, 0x33, 0x44]).mem.read8 10 = .ok ((0b10111 : BitVec 5) ++ (2 : BitVec 3)) ∧
    (machineAt 15 10 [0xBA, 0x11, 0x22, 0x33, 0x44]).mem.read8 11 = .ok 0x11 ∧
    (machineAt 15 10 [0xBA, 0x11, 0x22, 0x33, 0x44]).mem.read8 12 = .ok 0x22 ∧
    (machineAt 15 10 [0xBA, 0x11, 0x22, 0x33, 0x44]).mem.read8 13 = .ok 0x33 ∧
    (machineAt 15 10 [0xBA, 0x11, 0x22, 0x33, 0x44]).mem.read8 14 = .ok 0x44 := by decide
theorem witness_JmpOperandFromTheByteAtIP :
    (machineAt 2 0 [0xEB, 0x80]).mem.read8 0 = .ok 0b11101011 ∧ (machineAt 2 0 [0xEB, 0x80]).mem.read8 1 = .ok 0x80 := by decide
/-- Both clauses, the instruction moved to another address with other bytes after it. -/
theorem witness_FetchLooksAtTheInstructionBytesOnly :
    (machineAt 2 0 [0xEB, 0x07]).fetchInstr = .ok (.jmpRel8 7) ∧
    (∀ k, k < 2 → (machineAt 16 9 [0xEB, 0x07, 0xFF]).mem.read8 (9 + k) = (machineAt 2 0 [0xEB, 0x07]).mem.read8 (0 + k)) ∧
    (machineAt 1 0 [0x90]).fetchInstr = .error .unimplementedOpcode ∧
    (machineAt 16 9 [0x90, 0xFF]).mem.read8 9 = (machineAt 1 0 [0x90]).mem.read8 0 := by decide
theorem witness_MovCompletesWithItsEffectAndFrame :
    (5 : GprIndex) ≠ 4 ∧ (match exec (.movImm32 4 0xFFFFFFFF) State.reset with
      | .next t => decide (t.readGpr 4 = 0xFFFFFFFF ∧ t.ip = 5) | .fault _ => false | .refused _ => false) = true := by decide
theorem witness_JmpCompletesWithItsEffectAndFrame :
    (-128 : Int) ≤ -128 ∧ (127 : Int) ≤ 127 ∧ (match exec (.jmpRel8 (-128)) State.reset with
      | .next t => decide (t.ip = 0xFFFFFF82) | .fault _ => false | .refused _ => false) = true := by decide
theorem witness_AssembledDisplacementReachesItsTarget :
    0 < 2 ^ 32 ∧ rel8Of (machineAt 256 0x7E []).ip.toNat 0 = some (-128) ∧ rel8Of (machineAt 256 0 []).ip.toNat 129 = some 127 := by decide
theorem witness_StepRunsTheDecodedInstruction :
    (machineAt 7 5 [0xEB, 0xF9]).execState = .running ∧
    (∀ (k : Nat) (h : k < [(0xEB : Byte), 0xF9].length), (machineAt 7 5 [0xEB, 0xF9]).mem.read8 (5 + k) = .ok [(0xEB : Byte), 0xF9][k]) ∧
    decode [0xEB, 0xF9] = .ok (.jmpRel8 (-7), []) := by decide
/-- The three clauses: a new IP of 0, of N - 1 and of N. -/
theorem witness_PostExecutionCheck :
    (machineAt 7 5 [0xEB, 0xF9]).execState = .running ∧
    (machineAt 7 5 [0xEB, 0xF9]).fetchInstr = .ok (.jmpRel8 (-7)) ∧ jumpTarget 5 (-7) = 0 ∧
    (machineAt 8 5 [0xEB, 0x00]).fetchInstr = .ok (.jmpRel8 0) ∧ jumpTarget 5 0 ≠ 0 ∧ (jumpTarget 5 0).toNat < 8 ∧
    (machineAt 7 5 [0xEB, 0x00]).fetchInstr = .ok (.jmpRel8 0) ∧ 7 ≤ (jumpTarget 5 0).toNat := by decide
theorem witness_OpcodeFetchOutsideMemoryHalts :
    (machineAt 16 16 []).execState = .running ∧ (machineAt 16 16 []).mem.size ≤ (machineAt 16 16 []).ip.toNat := by decide
theorem witness_AbsentOpcodeHalts :
    (machineAt 1 0 [0xF4]).execState = .running ∧ (machineAt 1 0 [0xF4]).mem.read8 0 = .ok 0xF4 ∧ dispatch 0xF4 = .absent := by decide
/-- Both clauses, the last operand byte at N. -/
theorem witness_OperandOutsideMemoryHaltsWithoutWrite :
    (machineAt 4 0 [0xB8]).mem.read8 0 = .ok 0xB8 ∧ dispatch 0xB8 = .movImm32 0 ∧ (machineAt 4 0 [0xB8]).mem.size ≤ 0 + 4 ∧
    (machineAt 1 0 [0xEB]).mem.read8 0 = .ok 0xEB ∧ dispatch 0xEB = .jmpRel8 ∧ (machineAt 1 0 [0xEB]).mem.size ≤ 0 + 1 := by decide
/-- Each branch of the formula at the edge of its range is a step of the tests above (VE2, VM9, VM8, VE9, VJ9, VE4). -/
theorem witness_StepIsTheStagedLoop : (machineAt 5 0 [0xB8, 1, 2, 3, 4]).execState = .running := by decide
theorem witness_HaltedUnimplementedExactlyOnAbsentOpcode :
    (machineAt 1 0 [0x90]).execState = .running ∧ (machineAt 1 0 [0x90]).ip.toNat < (machineAt 1 0 [0x90]).mem.size ∧
    dispatch (lookupCell 0 (machineAt 1 0 [0x90]).mem.cells) = .absent := by decide
/-- Case (d): the new IP is N. Cases (a) to (c) are the two witnesses above. -/
theorem witness_HaltedOutOfBoundsInExactlyFourCases :
    ∃ u, (machineAt 5 0 [0xB8, 1, 2, 3, 4]).fetchInstr = .ok (.movImm32 0 0x04030201) ∧
      exec (.movImm32 0 0x04030201) (machineAt 5 0 [0xB8, 1, 2, 3, 4]) = .next u ∧ u.ip ≠ 0 ∧ u.mem.size ≤ u.ip.toNat :=
  ⟨_, by decide, rfl, by decide, by decide⟩
/-- VJ7, VE7 and a launch at address 0. -/
theorem witness_NormalHaltOnlyAfterAnOperation :
    (∃ t, step (machineAt 256 0 [0xEB, 0xFE]) = .next t ∧ t.execState = .haltedNormally) ∧
    (machineAt 256 0 [0xB8, 0, 0, 0, 0]).execState = .running ∧ (machineAt 256 0 [0xB8, 0, 0, 0, 0]).ip = 0 ∧
    (machineAt 256 0 [0xB8, 0, 0, 0, 0]).fetchInstr = .ok (.movImm32 0 0) ∧ Params.default.inRange ∧ Params.default.initIP = 0 :=
  ⟨⟨_, rfl, rfl⟩, by decide, by decide, by decide, by decide, by decide⟩
theorem witness_HaltedStepNamesTheEnd :
    ({ machineAt 1 0 [] with execState := .haltedNormally } : State).execState = .haltedNormally ∧
    ({ machineAt 1 0 [] with execState := .haltedUnimplemented } : State).execState = .haltedUnimplemented ∧
    ({ machineAt 1 0 [] with execState := .haltedOutOfBounds } : State).execState = .haltedOutOfBounds := by decide
theorem witness_OnlyTheStateMachineWritesTheExecutionState :
    (∃ t, exec (.jmpRel8 0) State.reset = .next t) ∧
    ({ machineAt 1 0 [] with execState := .haltedNormally } : State).execState ≠ .running ∧
    ∃ t, Sys2Proof.core.run 0 { machineAt 1 0 [] with execState := .haltedNormally } = .next t :=
  ⟨⟨_, rfl⟩, by decide, ⟨_, rfl⟩⟩
theorem witness_SelfJumpRunsForever :
    (machineAt 4 2 [0xEB, 0xFE]).execState = .running ∧ (machineAt 4 2 [0xEB, 0xFE]).ip ≠ 0 ∧
    (machineAt 4 2 [0xEB, 0xFE]).mem.read8 2 = .ok 0xEB ∧ (machineAt 4 2 [0xEB, 0xFE]).mem.read8 3 = .ok 0xFE := by decide
theorem witness_StepKeepsTheInvariant :
    (machineAt 4 2 [0xEB, 0xFE]).Inv ∧ ∃ t, step (machineAt 4 2 [0xEB, 0xFE]) = .next t :=
  ⟨⟨by decide, by decide, trivial⟩, ⟨_, rfl⟩⟩
theorem witness_ConstructionMeetsTheInvariant : ∃ s, construct Params.default = .next s := ⟨_, rfl⟩
theorem witness_RunningAfterAStepHasAValidIP :
    ∃ t, step (machineAt 8 5 [0xEB, 0x00]) = .next t ∧ t.execState = .running := ⟨_, rfl, rfl⟩
theorem witness_FlagsAreNeitherReadNorWritten :
    (∃ t, exec (.movImm32 0 1) State.reset = .next t) ∧ (∃ t, step (machineAt 8 5 [0xEB, 0x00]) = .next t) ∧
    ∃ s t, construct Params.default = .next s ∧ Sys2Proof.core.run 1 s = .next t :=
  ⟨⟨_, rfl⟩, ⟨_, rfl⟩, ⟨_, _, rfl, rfl⟩⟩
theorem witness_RegisterValuesNeverSteerARun :
    ∃ t, Sys2Proof.core.run 2 (machineAt 16 0 [0xB8, 5, 0, 0, 0, 0xEB, 0xF9]) = .next t := ⟨_, rfl⟩
/-- A halt of each kind: a fetch stage (VE3), the post-execution check (VM8), the normal end (VJ7). -/
theorem witness_HostReadsOnlyAfterAHalt :
    (∃ v, hostView { machineAt 1 0 [] with execState := .haltedNormally } = some v) ∧
    (∃ t, step (machineAt 1 0 [0x90]) = .next t ∧ t.execState = .haltedUnimplemented) ∧
    (∃ t, step (machineAt 5 0 [0xB8, 1, 2, 3, 4]) = .next t ∧ t.execState = .haltedOutOfBounds) ∧
    (∃ t, step (machineAt 256 0 [0xEB, 0xFE]) = .next t ∧ t.execState = .haltedNormally) :=
  ⟨⟨_, rfl⟩, ⟨_, rfl, rfl⟩, ⟨_, rfl, rfl⟩, ⟨_, rfl, rfl⟩⟩

end Sys2Proof.Tests
end

section
/-! Construction and reset meet the invariant (00_scope.md R6, 10_state.md R30). -/

namespace Sys2Proof.Machine

/-- A launch has a run exactly when its parameters are in range, and the run starts in the constructed state. -/
theorem construct_eq_next {p : Params} {s : State} :
    construct p = .next s ↔ p.inRange ∧ s = constructed p := by
  unfold construct
  split
  · rename_i hp
    exact ⟨fun h => ⟨hp, by cases h; rfl⟩, fun ⟨_, hs⟩ => by rw [hs]⟩
  · rename_i hp
    exact ⟨(nomatch ·), fun ⟨hr, _⟩ => absurd hr hp⟩

/-- The default launch starts in the reset state (10_state.md R30 at the defaults of R6). -/
theorem construct_default : construct Params.default = .next State.reset := by
  rw [construct_eq_next]
  exact ⟨by decide, rfl⟩

/-- Memory before the loader (20_memory.md R34) lists no cell and so is canonical. -/
theorem zeroedMemory_wf (n : Nat) : Memory.wf { size := n, cells := [] } :=
  ⟨.nil, by simp⟩

/-- While the machine runs there is no halt to record. -/
theorem haltRecord_of_running {s : State} (h : s.execState = .running) : s.haltRecord := by
  simp [State.haltRecord, h]

/-- The loader starts from canonical memory and places one byte after another, so the image's content is free: of the
launch's ranges, only the one on N is needed. -/
theorem constructed_inv {p : Params} (hN : p.memSize ≤ Config.maxMemSize) : (constructed p).Inv where
  memWf := placeAll_wf (zeroedMemory_wf p.memSize) 0 p.image
  memSize := by
    simpa only [constructed, placeAll_size] using hN
  record := haltRecord_of_running rfl

/-- Settles O37: a construction that answers was in range, and the constructed state meets the invariant. -/
theorem constructionMeetsTheInvariant : Obligations.ConstructionMeetsTheInvariant := by
  intro p s h
  obtain ⟨⟨hN, -, -⟩, rfl⟩ := construct_eq_next.1 h
  exact constructed_inv hN

/-- Settles O36: the reset state is the default construction, which meets the invariant. -/
theorem resetMeetsTheInvariant : Obligations.ResetMeetsTheInvariant :=
  constructionMeetsTheInvariant Params.default State.reset construct_default

end Sys2Proof.Machine
end

section
/-! The state's own rules (10_state.md): what one operation, one step and a run do to the registers and to the execution
state, the independence of a run from the values in the GPRs and in FLAGS, and the reset values. -/

namespace Sys2Proof.Machine

/-! ### One operation -/

@[simp] theorem exec_movImm32 (r : GprIndex) (imm : Word) (s : State) :
    exec (.movImm32 r imm) s = .next ((s.writeGpr r imm).advanceIP 5) := rfl

@[simp] theorem exec_jmpRel8 (d : Int) (s : State) :
    exec (.jmpRel8 d) s = .next (s.writeIP (jumpTarget s.ip d)) := rfl

/-- What every operation leaves unchanged, of the state it answers. -/
theorem exec_frame {i : Instr} {s t : State} (h : exec i s = .next t) :
    t.mem = s.mem ∧ t.flags = s.flags ∧ t.execState = s.execState := by
  obtain ⟨u, hu, hframe⟩ := exec_cases i s
  obtain rfl : u = t := by simpa [hu] using h
  exact hframe

/-- No operation reads FLAGS (10_state.md R25). -/
theorem exec_withFlags {i : Instr} {s t : State} (f : Word) (h : exec i s = .next t) :
    exec i { s with flags := f } = .next { t with flags := f } := by
  cases i with
  | movImm32 r imm => cases h; rfl
  | jmpRel8 d => cases h; rfl

/-! ### One step and a run -/

theorem step_flags {s t : State} (h : step s = .next t) : t.flags = s.flags := by
  obtain ⟨-, ⟨e, -, rfl⟩ | ⟨i, u, -, hu, rfl⟩⟩ := step_cases h
  · rfl
  · obtain ⟨-, hflags, -⟩ := exec_frame hu
    exact hflags

theorem run_flags {k : Nat} {s t : State} (h : Sys2Proof.core.run k s = .next t) : t.flags = s.flags :=
  run_keeps (P := fun u => u.flags = s.flags) (fun _ _ hu hstep => (step_flags hstep).trans hu) rfl h

/-- What steers a step: from a state with the same memory, IP and execution state, it takes the same error or runs the
same operation. -/
theorem step_same_course {s s' t : State} (hmem : s'.mem = s.mem) (hip : s'.ip = s.ip)
    (hexec : s'.execState = s.execState) (h : step s = .next t) :
    (∃ e, t = raise e s ∧ step s' = .next (raise e s')) ∨
    (∃ i u, exec i s = .next u ∧ t = postCheck u ∧ step s' = afterOperation (exec i s')) := by
  obtain ⟨hrun, hcases⟩ := step_cases h
  have hrun' : s'.execState = .running := hexec.trans hrun
  rw [← fetchInstr_congr hmem hip] at hcases
  obtain ⟨e, hfetch, rfl⟩ | ⟨i, u, hfetch, hu, rfl⟩ := hcases
  · exact .inl ⟨e, rfl, step_error hrun' hfetch⟩
  · exact .inr ⟨i, u, hu, rfl, step_ok hrun' hfetch⟩

/-- No step reads FLAGS (10_state.md R25). -/
theorem step_withFlags {s t : State} (f : Word) (h : step s = .next t) :
    step { s with flags := f } = .next { t with flags := f } := by
  obtain ⟨e, rfl, h'⟩ | ⟨i, u, hu, rfl, h'⟩ :=
    step_same_course (s := s) (s' := { s with flags := f }) rfl rfl rfl h
  · exact h'
  · rw [h', exec_withFlags f hu]
    rfl

/-- A halted machine answers no state but, after no steps, its own (50_execution_loop.md R80). -/
theorem run_of_halted {k : Nat} {s t : State} (hs : s.execState ≠ .running)
    (h : Sys2Proof.core.run k s = .next t) : t = s := by
  cases k with
  | zero => cases h; rfl
  | succ k =>
    obtain ⟨u, hu, -⟩ := run_succ_cases h
    exact absurd (step_cases hu).1 hs

/-! ### Two runs that differ in the values of the GPRs and of FLAGS -/

/-- What two runs keep between them when one starts with the register file `g` and the other with `g'`: they differ in
FLAGS and in registers that neither has written yet. -/
structure DataTwins (g g' : Vector Word 8) (t t' : State) : Prop where
  mem : t'.mem = t.mem
  ip : t'.ip = t.ip
  execState : t'.execState = t.execState
  gpr : ∀ r : GprIndex, t'.readGpr r = t.readGpr r ∨ (t.readGpr r = g[r] ∧ t'.readGpr r = g'[r])

theorem dataTwins_withData (s : State) (g : Vector Word 8) (f : Word) :
    DataTwins s.gpr g s (s.withData g f) where
  mem := rfl
  ip := rfl
  execState := rfl
  gpr _ := .inr ⟨rfl, rfl⟩

section
variable {g g' : Vector Word 8} {s s' t : State}

theorem DataTwins.raise (h : DataTwins g g' s s') (e : ErrorClass) :
    DataTwins g g' (raise e s) (raise e s') where
  mem := h.mem
  ip := h.ip
  execState := rfl
  gpr := h.gpr

theorem DataTwins.postCheck (h : DataTwins g g' s s') : DataTwins g g' (postCheck s) (postCheck s') where
  mem := h.mem
  ip := h.ip
  execState := postState_congr h.mem h.ip
  gpr := h.gpr

/-- A move gives both machines the same value in the register it writes. -/
theorem DataTwins.writeGpr (h : DataTwins g g' s s') (r : GprIndex) (v : Word) :
    DataTwins g g' (s.writeGpr r v) (s'.writeGpr r v) where
  mem := h.mem
  ip := h.ip
  execState := h.execState
  gpr q := by
    by_cases hq : r = q
    · exact .inl (by simp [hq])
    · simpa [hq] using h.gpr q

theorem DataTwins.writeIP (h : DataTwins g g' s s') (v : Word) :
    DataTwins g g' (s.writeIP v) (s'.writeIP v) where
  mem := h.mem
  ip := rfl
  execState := h.execState
  gpr := h.gpr

theorem DataTwins.advanceIP (h : DataTwins g g' s s') (n : Nat) :
    DataTwins g g' (s.advanceIP n) (s'.advanceIP n) := by
  simpa only [State.advanceIP, h.ip] using h.writeIP (s.ip + BitVec.ofNat 32 n)

theorem DataTwins.exec (h : DataTwins g g' s s') {i : Instr} (ht : exec i s = .next t) :
    ∃ t', exec i s' = .next t' ∧ DataTwins g g' t t' := by
  cases i with
  | movImm32 r imm =>
    cases ht
    exact ⟨_, exec_movImm32 r imm s', (h.writeGpr r imm).advanceIP 5⟩
  | jmpRel8 d =>
    cases ht
    refine ⟨_, exec_jmpRel8 d s', ?_⟩
    rw [h.ip]
    exact h.writeIP _

theorem DataTwins.step (h : DataTwins g g' s s') (ht : step s = .next t) :
    ∃ t', step s' = .next t' ∧ DataTwins g g' t t' := by
  obtain ⟨e, rfl, h'⟩ | ⟨i, u, hu, rfl, h'⟩ := step_same_course h.mem h.ip h.execState ht
  · exact ⟨_, h', h.raise e⟩
  · obtain ⟨u', hu', htwins⟩ := h.exec hu
    rw [hu'] at h'
    exact ⟨_, h', htwins.postCheck⟩

theorem DataTwins.run {k : Nat} (h : DataTwins g g' s s') (ht : Sys2Proof.core.run k s = .next t) :
    ∃ t', Sys2Proof.core.run k s' = .next t' ∧ DataTwins g g' t t' := by
  induction k generalizing s s' with
  | zero => cases ht; exact ⟨s', rfl, h⟩
  | succ k ih =>
    obtain ⟨u, hu, hrun⟩ := run_succ_cases ht
    obtain ⟨u', hu', htwins⟩ := h.step hu
    rw [run_succ_next hu']
    exact ih htwins hrun

end

/-- Settles O40: started as twins, the two runs stay twins. -/
theorem registerValuesNeverSteerARun : Obligations.RegisterValuesNeverSteerARun := by
  intro k s t g f h
  obtain ⟨t', h', htwins⟩ := (dataTwins_withData s g f).run h
  exact ⟨t', h', htwins.mem, htwins.ip, htwins.execState, run_flags h, run_flags h', htwins.gpr⟩

/-! ### The reset values -/

/-- Addresses past the placement are left alone. -/
theorem read8_placeAll_above {m : Memory} (h : m.wf) {a a' : Nat} {bs : List Byte}
    (hge : a + bs.length ≤ a') : (m.placeAll a bs).read8 a' = m.read8 a' := by
  induction bs generalizing m a with
  | nil => rfl
  | cons b rest ih =>
    rw [List.length_cons] at hge
    rw [Memory.placeAll, ih (place_wf h a b) (by omega), read8_place_other h (by omega)]

theorem constructed_read8_image {p : Params} (hp : p.inRange) {a : Nat} (ha : a < p.image.length) :
    (constructed p).mem.read8 a = .ok p.image[a] := by
  obtain ⟨-, -, hfit⟩ := hp
  have := read8_placeAll (zeroedMemory_wf p.memSize) (a := 0) ha (by simpa using hfit)
  rwa [Nat.zero_add] at this

/-- Every named field of FLAGS is 0 at the reset value of the register (10_state.md R24, R30). -/
theorem flag_fields_of_flags_zero {s : State} (h : s.flags = 0) :
    s.carry = false ∧ s.interruptEnable = false ∧ s.ioPrivilegeLevel = 0 := by
  simp only [State.carry, State.interruptEnable, State.ioPrivilegeLevel, h]
  decide

/-- Only the stack pointer has a reset value other than 0 (10_state.md R30). -/
theorem constructed_readGpr (p : Params) (r : GprIndex) :
    (constructed p).readGpr r = if r = stackPointer then p.initSP else 0 := by
  simp [constructed, State.readGpr, Vector.getElem_set, Fin.ext_iff, eq_comm]

theorem constructed_read8_beyond_image {p : Params} {a : Nat} (hge : p.image.length ≤ a)
    (ha : a < p.memSize) : (constructed p).mem.read8 a = .ok 0 := by
  have := read8_placeAll_above (zeroedMemory_wf p.memSize) (a := 0) (bs := p.image) (a' := a) (by omega)
  rw [constructed, this, read8_ok ha]
  rfl

/-- Settles O2: the constructed state, field by field; its memory is the zeroed one with the image placed at 0. -/
theorem constructionSetsEveryResetValue : Obligations.ConstructionSetsEveryResetValue := by
  intro p hp
  obtain ⟨hcarry, hinterrupt, hprivilege⟩ := flag_fields_of_flags_zero (s := constructed p) rfl
  exact ⟨constructed p, construct_eq_next.2 ⟨hp, rfl⟩, placeAll_size _ _ _,
    fun _ => constructed_read8_image hp, fun _ => constructed_read8_beyond_image,
    constructed_readGpr p 0, constructed_readGpr p 1, constructed_readGpr p 2, constructed_readGpr p 3,
    constructed_readGpr p 4, constructed_readGpr p 5, constructed_readGpr p 6, constructed_readGpr p 7,
    rfl, hcarry, hinterrupt, hprivilege, rfl, rfl⟩

/-! ### The execution state, FLAGS and IP after a step -/

/-- Settles O32: every operation keeps the execution state, and a halted machine takes no step. -/
theorem onlyTheStateMachineWritesTheExecutionState :
    Obligations.OnlyTheStateMachineWritesTheExecutionState := by
  refine ⟨fun i s t h => ?_, fun s hs k t h => ?_⟩
  · obtain ⟨-, -, hexec⟩ := exec_frame h
    exact hexec
  · rw [run_of_halted hs h]

/-- Settles O38: a step that took an error is halted, and the post-execution check answers Running only for such an IP. -/
theorem runningAfterAStepHasAValidIP : Obligations.RunningAfterAStepHasAValidIP := by
  intro s t h hrun
  obtain ⟨-, ⟨e, -, rfl⟩ | ⟨i, u, -, -, rfl⟩⟩ := step_cases h
  · exact absurd hrun (haltState_ne_running e)
  · rw [postCheck_execState] at hrun
    obtain ⟨-, hp⟩ | ⟨hne, hlt, -⟩ | ⟨-, -, hp⟩ := postState_cases u
    · cases hp.symm.trans hrun
    · exact ⟨hne, hlt⟩
    · cases hp.symm.trans hrun

/-- Settles O39: operation and step carry FLAGS along unread, so a run keeps the 0 of its construction. -/
theorem flagsAreNeitherReadNorWritten : Obligations.FlagsAreNeitherReadNorWritten := by
  refine ⟨fun i s t f h => ?_, fun s t f h => ⟨step_flags h, step_withFlags f h⟩, fun p s t k hc h => ?_⟩
  · obtain ⟨-, hflags, -⟩ := exec_frame h
    exact ⟨hflags, exec_withFlags f h⟩
  · obtain ⟨-, rfl⟩ := construct_eq_next.1 hc
    exact run_flags h

/-! ### Codes -/

theorem execState_code_injective : Function.Injective ExecState.code := by
  intro x y
  cases x <;> cases y <;> decide

/-- Settles O41: the codes one by one, and that no two states share one. -/
theorem haltCodes : Obligations.HaltCodes :=
  ⟨rfl, rfl, rfl, rfl, fun _ _ h => execState_code_injective h, rfl, rfl⟩

end Sys2Proof.Machine
end

section
/-! The memory's own rules (20_memory.md): what a byte read and a four-byte read answer, and that a run leaves memory as its
construction made it. -/

namespace Sys2Proof.Machine

/-! ### Reads -/

/-- A byte read succeeds for one reason only, with the byte held (20_memory.md R36, R38). -/
theorem read8_eq_ok {m : Memory} {a : Nat} {b : Byte} :
    m.read8 a = .ok b ↔ a < m.size ∧ b = lookupCell a m.cells := by
  by_cases ha : a < m.size
  · simp [read8_ok ha, ha, eq_comm]
  · simp [read8_error (Nat.not_lt.1 ha), ha]

/-- Settles O4: the byte read by the two sides of its bounds check. -/
theorem byteReadIsBoundsChecked : Obligations.ByteReadIsBoundsChecked := by
  intro m a
  refine ⟨⟨fun ⟨b, hb⟩ => ?_, fun ⟨_, ha⟩ => ⟨_, read8_ok ha⟩⟩, fun b hb => ?_,
    fun ha => read8_error (Nat.not_lt.1 ha), fun hN => read8_error (by omega)⟩
  · exact ⟨Nat.zero_le a, (read8_eq_ok.1 hb).1⟩
  · exact (read8_eq_ok.1 hb).2

/-- Where the last of the four addresses is in bounds, the three before it are too. -/
theorem read32_ok {m : Memory} {a : Nat} (h : a + 3 < m.size) :
    m.read32 a = .ok (composeLE (lookupCell a m.cells) (lookupCell (a + 1) m.cells)
      (lookupCell (a + 2) m.cells) (lookupCell (a + 3) m.cells)) :=
  fetchLE32_eq_ok.2 ⟨_, _, _, _, read8_ok (show a < m.size by omega), read8_ok (show a + 1 < m.size by omega),
    read8_ok (show a + 2 < m.size by omega), read8_ok h, rfl⟩

/-- A read that is partly in bounds reads nothing: it would have to read its last byte (20_memory.md R40). -/
theorem read32_error {m : Memory} {a : Nat} (h : m.size ≤ a + 3) :
    m.read32 a = .error .outOfBoundsAccess := by
  cases hread : m.read32 a with
  | ok w =>
    obtain ⟨-, -, -, b3, -, -, -, hlast, -⟩ := fetchLE32_eq_ok.1 hread
    have hlt : a + 3 < m.size := (read8_eq_ok.1 hlast).1
    omega
  | error e => rw [(fetchLE32_source_error hread).1]

/-- Settles O5: the four-byte read by the two sides of the bounds check on its last byte. -/
theorem fourByteReadComposesLittleEndian : Obligations.FourByteReadComposesLittleEndian := by
  intro m a
  split
  · rename_i h
    exact read32_ok h
  · rename_i h
    exact read32_error (Nat.not_lt.1 h)

/-! ### Memory along a run -/

theorem step_mem {s t : State} (h : step s = .next t) : t.mem = s.mem := by
  obtain ⟨-, ⟨e, -, rfl⟩ | ⟨i, u, -, hu, rfl⟩⟩ := step_cases h
  · rfl
  · obtain ⟨hmem, -, -⟩ := exec_frame hu
    exact hmem

theorem run_mem {k : Nat} {s t : State} (h : Sys2Proof.core.run k s = .next t) : t.mem = s.mem :=
  run_keeps (P := fun u => u.mem = s.mem) (fun _ _ hu hstep => (step_mem hstep).trans hu) rfl h

/-- Settles O8: no step writes memory, so every read of the run is one of the constructed memory. -/
theorem memoryHoldsTheResetContentForTheWholeRun : Obligations.MemoryHoldsTheResetContentForTheWholeRun := by
  intro p s t k hconstruct hrun
  obtain ⟨hp, rfl⟩ := construct_eq_next.1 hconstruct
  rw [run_mem hrun]
  exact ⟨rfl, fun _ => constructed_read8_image hp, fun _ => constructed_read8_beyond_image⟩

end Sys2Proof.Machine
end

section
/-! The encoding's own rules (30_encoding.md): the fields of the two formats, the dispatch table byte by byte, and the one
fact that ties the decoder to the encoder: a source decodes to an instruction exactly when it begins with the
instruction's encoding. -/

namespace Sys2Proof

/-! ### The fields of the two formats -/

/-- The register index is opcode[2:0] (30_encoding.md R59). -/
theorem gprOfOpcode_val (op : Byte) : (gprOfOpcode op).val = op.toNat % 8 :=
  BitVec.extractLsb'_toNat 0 3 op

/-- The four bytes stand side by side in the word, the last one on top (20_memory.md R42). -/
theorem composeLE_eq_append (b0 b1 b2 b3 : Byte) : composeLE b0 b1 b2 b3 = b3 ++ b2 ++ b1 ++ b0 := by
  have h := BitVec.setWidth_append_append_append_eq_shiftLeft_setWidth_or (w'''' := 32)
    (b := b3) (b' := b2) (b'' := b1) (b''' := b0)
  rw [BitVec.setWidth_eq] at h
  simp only [h, composeLE, Nat.reduceAdd, BitVec.or_assoc, BitVec.or_comm]

/-- The word composed of the immediate bytes that the encoder cuts a word into is that word. -/
theorem composeLE_extractLsb' (w : Word) :
    composeLE (w.extractLsb' 0 8) (w.extractLsb' 8 8) (w.extractLsb' 16 8) (w.extractLsb' 24 8) = w := by
  rw [composeLE_eq_append, BitVec.extractLsb'_append_extractLsb'_eq_extractLsb' (start₂ := 24) (len₁ := 8) rfl,
    BitVec.extractLsb'_append_extractLsb'_eq_extractLsb' (start₂ := 16) (len₁ := 8) rfl,
    BitVec.extractLsb'_append_extractLsb'_eq_extractLsb' (start₂ := 8) (len₁ := 8) rfl]
  exact BitVec.extractLsb'_eq_self

/-- Each byte of a composed word is found at its place. -/
theorem extractLsb'_composeLE (b0 b1 b2 b3 : Byte) :
    (composeLE b0 b1 b2 b3).extractLsb' 0 8 = b0 ∧ (composeLE b0 b1 b2 b3).extractLsb' 8 8 = b1 ∧
      (composeLE b0 b1 b2 b3).extractLsb' 16 8 = b2 ∧ (composeLE b0 b1 b2 b3).extractLsb' 24 8 = b3 := by
  rw [composeLE_eq_append]
  have above {w : Nat} (hi : BitVec w) (lo : Byte) (k : Nat) :
      (hi ++ lo).extractLsb' (k + 8) 8 = hi.extractLsb' k 8 :=
    BitVec.extractLsb'_append_eq_of_le (Nat.le_add_left 8 k)
  exact ⟨BitVec.extractLsb'_append_eq_right,
    (above _ b0 0).trans BitVec.extractLsb'_append_eq_right,
    (above _ b0 8).trans ((above _ b1 0).trans BitVec.extractLsb'_append_eq_right),
    (above _ b0 16).trans ((above _ b1 8).trans BitVec.extractLsb'_append_eq_left)⟩

theorem s8_eq_toInt (b : Byte) : s8 b = b.toInt := by
  rw [s8, BitVec.toInt_eq_toNat_cond]
  split <;> split <;> omega

theorem ofInt_s8 (b : Byte) : BitVec.ofInt 8 (s8 b) = b := by
  rw [s8_eq_toInt, BitVec.ofInt_toInt]

theorem wellFormed_jmpRel8 {d : Int} : (Instr.jmpRel8 d).wellFormed = true ↔ -128 ≤ d ∧ d ≤ 127 := by
  simp [Instr.wellFormed]

theorem s8_ofInt {d : Int} (h : (Instr.jmpRel8 d).wellFormed = true) : s8 (BitVec.ofInt 8 d) = d := by
  obtain ⟨hlow, hhigh⟩ := wellFormed_jmpRel8.1 h
  rw [s8_eq_toInt]
  exact BitVec.toInt_ofInt_eq_self (by decide) hlow (by omega)

/-! ### The dispatch table, byte by byte (30_encoding.md R58) -/

/-- The opcode byte of a move does not wrap (30_encoding.md R55). -/
theorem movOpcode_toNat (r : GprIndex) : (0xB8 + BitVec.ofNat 8 r.val : Byte).toNat = 0xB8 + r.val := by
  revert r
  decide

theorem dispatch_eq_movImm32 {op : Byte} {r : GprIndex} :
    dispatch op = .movImm32 r ↔ op = 0xB8 + BitVec.ofNat 8 r.val := by
  constructor
  · intro h
    obtain ⟨hlow, hhigh, rfl⟩ := dispatch_eq_mov h
    apply BitVec.eq_of_toNat_eq
    rw [movOpcode_toNat, gprOfOpcode_val]
    omega
  · rintro rfl
    revert r
    decide

theorem dispatch_eq_jmpRel8 {op : Byte} : dispatch op = .jmpRel8 ↔ op = 0xEB :=
  ⟨dispatch_eq_jmp, fun h => by rw [h]; decide⟩

/-! ### The decoder and the encoder -/

@[simp] theorem encode_length (i : Instr) : (encode i).length = i.size := by
  cases i <;> rfl

/-- The source holds these bytes, from the opcode byte on; what it answers after them is free. -/
def StartsWith (src : ByteSource) (bs : List Byte) : Prop :=
  ∀ (k : Nat) (h : k < bs.length), src k = .ok bs[k]

theorem startsWith_nil {src : ByteSource} : StartsWith src [] := nofun

theorem startsWith_cons {src : ByteSource} {b : Byte} {bs : List Byte} :
    StartsWith src (b :: bs) ↔ src 0 = .ok b ∧ StartsWith (fun k => src (k + 1)) bs := by
  constructor
  · exact fun h => ⟨h 0 (Nat.succ_pos _), fun k hk => h (k + 1) (Nat.succ_lt_succ hk)⟩
  · rintro ⟨hhead, htail⟩ (_ | k) hk
    · exact hhead
    · exact htail k (Nat.lt_of_succ_lt_succ hk)

theorem startsWith_listSource {bs p : List Byte} : StartsWith (listSource bs) p ↔ p <+: bs := by
  rw [List.prefix_iff_getElem?]
  refine forall₂_congr fun k hk => ?_
  unfold listSource
  cases bs[k]? <;> simp

theorem startsWith_mov {src : ByteSource} {op b1 b2 b3 b4 : Byte} :
    StartsWith src [op, b1, b2, b3, b4] ↔
      src 0 = .ok op ∧ src 1 = .ok b1 ∧ src 2 = .ok b2 ∧ src 3 = .ok b3 ∧ src 4 = .ok b4 := by
  simp [startsWith_cons, startsWith_nil]

theorem startsWith_jmp {src : ByteSource} {op b : Byte} :
    StartsWith src [op, b] ↔ src 0 = .ok op ∧ src 1 = .ok b := by
  simp [startsWith_cons, startsWith_nil]

/-- The bytes of MOVI (R55) for a word given by its bytes, the first byte of the immediate the least significant. -/
theorem encode_movImm32_composeLE (r : GprIndex) (b1 b2 b3 b4 : Byte) :
    encode (.movImm32 r (composeLE b1 b2 b3 b4)) = [0xB8 + BitVec.ofNat 8 r.val, b1, b2, b3, b4] := by
  obtain ⟨h1, h2, h3, h4⟩ := extractLsb'_composeLE b1 b2 b3 b4
  rw [encode, h1, h2, h3, h4]

theorem decodeFrom_movImm32 {src : ByteSource} {op : Byte} {r : GprIndex} {imm : Word} (hop : src 0 = .ok op)
    (hdispatch : dispatch op = .movImm32 r) (himm : fetchLE32 src 1 = .ok imm) :
    decodeFrom src = .ok (.movImm32 r imm) := by
  simp [decodeFrom, fetchU8, hop, hdispatch, himm]

theorem decodeFrom_jmpRel8 {src : ByteSource} {op : Byte} {d : Int} (hop : src 0 = .ok op)
    (hdispatch : dispatch op = .jmpRel8) (hd : fetchS8 src 1 = .ok d) : decodeFrom src = .ok (.jmpRel8 d) := by
  simp [decodeFrom, fetchU8, hop, hdispatch, hd]

/-- An absent opcode is found from its one byte (30_encoding.md R67). -/
theorem decodeFrom_absent {src : ByteSource} {op : Byte} (hop : src 0 = .ok op)
    (hdispatch : dispatch op = .absent) : decodeFrom src = .error .unimplementedOpcode := by
  simp [decodeFrom, fetchU8, hop, hdispatch]

/-- What a decoding has read is the encoding of its result. -/
theorem startsWith_encode_of_decodeFrom {src : ByteSource} {i : Instr} (h : decodeFrom src = .ok i) :
    StartsWith src (encode i) := by
  obtain ⟨op, r, imm, hop, hdispatch, himm, rfl⟩ | ⟨op, d, hop, hdispatch, hd, rfl⟩ := decodeFrom_eq_ok h
  · obtain rfl := dispatch_eq_movImm32.1 hdispatch
    obtain ⟨b1, b2, b3, b4, h1, h2, h3, h4, rfl⟩ := fetchLE32_eq_ok.1 himm
    rw [encode_movImm32_composeLE]
    exact startsWith_mov.2 ⟨hop, h1, h2, h3, h4⟩
  · obtain rfl := dispatch_eq_jmpRel8.1 hdispatch
    obtain ⟨b, hb, rfl⟩ := fetchS8_eq_ok.1 hd
    rw [encode, ofInt_s8]
    exact startsWith_jmp.2 ⟨hop, hb⟩

/-- Where the encoding of an instruction stands, the decoder finds the instruction. -/
theorem decodeFrom_of_startsWith_encode {src : ByteSource} {i : Instr} (hwf : i.wellFormed = true)
    (h : StartsWith src (encode i)) : decodeFrom src = .ok i := by
  cases i with
  | movImm32 r imm =>
    obtain ⟨hop, h1, h2, h3, h4⟩ := startsWith_mov.1 h
    exact decodeFrom_movImm32 hop (dispatch_eq_movImm32.2 rfl)
      (fetchLE32_eq_ok.2 ⟨_, _, _, _, h1, h2, h3, h4, (composeLE_extractLsb' imm).symm⟩)
  | jmpRel8 d =>
    obtain ⟨hop, hb⟩ := startsWith_jmp.1 h
    exact decodeFrom_jmpRel8 hop (dispatch_eq_jmpRel8.2 rfl) (fetchS8_eq_ok.2 ⟨_, hb, (s8_ofInt hwf).symm⟩)

/-- The decoder and the encoder determine each other; every statement below about bytes that decode is a use of this. -/
theorem decodeFrom_eq_ok_iff {src : ByteSource} {i : Instr} :
    decodeFrom src = .ok i ↔ i.wellFormed = true ∧ StartsWith src (encode i) :=
  ⟨fun h => ⟨decodeFrom_wellFormed h, startsWith_encode_of_decodeFrom h⟩,
    fun ⟨hwf, h⟩ => decodeFrom_of_startsWith_encode hwf h⟩

theorem decode_eq_ok {bs rest : List Byte} {i : Instr} :
    decode bs = .ok (i, rest) ↔ decodeFrom (listSource bs) = .ok i ∧ rest = bs.drop i.size := by
  unfold decode
  cases decodeFrom (listSource bs) with
  | error e => simp
  | ok j =>
    simp only [Except.ok.injEq, Prod.mk.injEq]
    exact and_congr_right fun h => by rw [h, eq_comm]

/-- A list decodes to an instruction and a rest exactly when it is the encoding with the rest after it. -/
theorem decode_eq_ok_iff_encode {bs rest : List Byte} {i : Instr} :
    decode bs = .ok (i, rest) ↔ i.wellFormed = true ∧ bs = encode i ++ rest := by
  rw [decode_eq_ok, decodeFrom_eq_ok_iff, startsWith_listSource, and_assoc, ← encode_length]
  refine and_congr_right fun _ => ⟨?_, ?_⟩
  · rintro ⟨hprefix, rfl⟩
    exact (List.prefix_iff_eq_append.1 hprefix).symm
  · rintro rfl
    exact ⟨List.prefix_append _ _, List.drop_left.symm⟩

/-- Settles O12: bytes that begin with an encoding decode to what it encodes. -/
theorem decodeOfEncode : Obligations.DecodeOfEncode :=
  fun _ _ hwf => decode_eq_ok_iff_encode.2 ⟨hwf, rfl⟩

/-- Settles O13: the converse, that bytes decode only to what they begin with the encoding of. -/
theorem encodeOfDecode : Obligations.EncodeOfDecode :=
  fun _ _ _ h => decode_eq_ok_iff_encode.1 h

/-! ### Single fields -/

/-- Settles O10: on the block 0xB8 to 0xBF both formulas for the index give what the table holds. -/
theorem registerIndexFromOpcode : Obligations.RegisterIndexFromOpcode := by
  intro op r
  have hbits : (op.extractLsb' 0 3).toNat = op.toNat % 8 := gprOfOpcode_val op
  rw [hbits]
  constructor
  · intro h
    obtain ⟨hlow, hhigh, rfl⟩ := dispatch_eq_mov h
    rw [gprOfOpcode_val]
    omega
  · rintro ⟨hlow, hhigh, hindex, -⟩
    refine dispatch_eq_movImm32.2 (BitVec.eq_of_toNat_eq ?_)
    rw [movOpcode_toNat]
    omega

/-- An entry outside the nine of the table is Absent: a selected operation names its own opcode. -/
theorem dispatch_eq_absent {op : Byte} (hmov : ∀ r : GprIndex, op ≠ 0xB8 + BitVec.ofNat 8 r.val)
    (hjmp : op ≠ 0xEB) : dispatch op = .absent := by
  cases h : dispatch op with
  | absent => rfl
  | movImm32 r => exact absurd (dispatch_eq_movImm32.1 h) (hmov r)
  | jmpRel8 => exact absurd (dispatch_eq_jmpRel8.1 h) hjmp

/-- Settles O9: the nine implemented entries, the others by exclusion, and their count by evaluating the 256 bytes (in the
kernel, since the list is too long for `decide` to unfold). -/
theorem dispatchTableContents : Obligations.DispatchTableContents := by
  refine ⟨by decide, by decide, by decide, by decide, by decide, by decide, by decide, by decide, by decide,
    fun b hb => dispatch_eq_absent (fun r hr => hb ?_) (fun hj => hb ?_), by decide +kernel⟩
  · subst hr
    clear hb
    revert r
    decide
  · subst hj
    decide

/-- Settles O14: the signed read is the byte read followed by `s8`. -/
theorem signedByteRead : Obligations.SignedByteRead := by
  refine fun src k => ⟨fun b hb => fetchS8_eq_ok.2 ⟨b, hb, rfl⟩, fun d hd => ?_, fun e he => ?_⟩
  · obtain ⟨b, -, rfl⟩ := fetchS8_eq_ok.1 hd
    exact s8_range b
  · rw [fetchS8, he]

/-- Settles O11: four words are encodings with a rest; of the other two the decoder's answer is computed. -/
theorem wordsOfTheFormatsDecode : Obligations.WordsOfTheFormatsDecode :=
  ⟨decode_eq_ok_iff_encode.2 ⟨rfl, by decide⟩, decode_eq_ok_iff_encode.2 ⟨rfl, by decide⟩,
    decode_eq_ok_iff_encode.2 ⟨rfl, by decide⟩, decode_eq_ok_iff_encode.2 ⟨rfl, by decide⟩, by decide, by decide⟩

end Sys2Proof

namespace Sys2Proof.Machine

/-! ### The fetch at IP -/

/-- A machine fetches the instruction whose encoding stands at IP. -/
theorem fetchInstr_eq_ok {s : State} {i : Instr} :
    s.fetchInstr = .ok i ↔ i.wellFormed = true ∧ StartsWith s.source (encode i) :=
  decodeFrom_eq_ok_iff

/-- The opcode byte of MOV is its five fixed bits over the register index (30_encoding.md R55). -/
theorem movOpcode_eq_append (r : BitVec 3) :
    0xB8 + BitVec.ofNat 8 r.toNat = (0b10111 : BitVec 5) ++ r := by
  revert r
  decide

/-- Settles O15: the five bytes are the encoding of the move. -/
theorem movOperandsFromTheBytesAtIP : Obligations.MovOperandsFromTheBytesAtIP := by
  intro s r b1 b2 b3 b4 hop h1 h2 h3 h4
  refine ⟨fetchInstr_eq_ok.2 ⟨rfl, ?_⟩, rfl, ?_⟩
  · rw [← composeLE_eq_append, encode_movImm32_composeLE, movOpcode_eq_append]
    exact startsWith_mov.2 ⟨hop, h1, h2, h3, h4⟩
  · rw [← movOpcode_eq_append, movOpcode_toNat ⟨r.toNat, r.isLt⟩, Nat.add_sub_cancel_left]

theorem jmpRel8_toInt_wellFormed (b : Byte) : (Instr.jmpRel8 b.toInt).wellFormed = true :=
  wellFormed_jmpRel8.2 (s8_eq_toInt b ▸ s8_range b)

/-- Settles O16: the two bytes are the encoding of the jump, whose displacement keeps its byte for the addend. -/
theorem jmpOperandFromTheByteAtIP : Obligations.JmpOperandFromTheByteAtIP := by
  intro s b hop hb
  obtain ⟨hlow, hhigh⟩ := wellFormed_jmpRel8.1 (jmpRel8_toInt_wellFormed b)
  refine ⟨fetchInstr_eq_ok.2 ⟨jmpRel8_toInt_wellFormed b, ?_⟩, rfl, hlow, hhigh, ?_⟩
  · rw [encode, BitVec.ofInt_toInt]
    exact startsWith_jmp.2 ⟨hop, hb⟩
  · rw [jumpTarget, displacement, sext32, BitVec.ofInt_toInt]

/-- A fetch fails as unimplemented only on an opcode byte that can be read and has no entry. -/
theorem absent_of_fetchInstr_unimplemented {s : State} (h : s.fetchInstr = .error .unimplementedOpcode) :
    ∃ op, s.mem.read8 s.ip.toNat = .ok op ∧ dispatch op = .absent := by
  obtain ⟨-, he⟩ | ⟨hip, habsent, -⟩ | ⟨-, -, he, -⟩ | ⟨-, -, he, -⟩ := fetchInstr_error h
  · cases he
  · exact ⟨_, read8_ok hip, habsent⟩
  · cases he
  · cases he

/-- Settles O17: the bytes that decide a fetch are the encoding of what it gives, or the one absent opcode. -/
theorem fetchLooksAtTheInstructionBytesOnly : Obligations.FetchLooksAtTheInstructionBytesOnly := by
  refine fun s s' => ⟨fun i hi hsame => ?_, fun hi hsame => ?_⟩
  · obtain ⟨hwf, hbytes⟩ := fetchInstr_eq_ok.1 hi
    refine fetchInstr_eq_ok.2 ⟨hwf, fun k hk => ?_⟩
    exact (hsame k (encode_length i ▸ hk)).trans (hbytes k hk)
  · obtain ⟨op, hop, habsent⟩ := absent_of_fetchInstr_unimplemented hi
    exact decodeFrom_absent (hsame.trans hop) habsent

/-! ### The target of a jump -/

/-- Sign extension keeps the value of a well-formed displacement. -/
theorem displacement_eq_ofInt {d : Int} (h : (Instr.jmpRel8 d).wellFormed = true) :
    displacement d = BitVec.ofInt 32 d := by
  rw [displacement, sext32, BitVec.signExtend, ← s8_eq_toInt, s8_ofInt h]

/-- The target as a number, modulo 2^32 (41_control_transfer.md R72). -/
theorem jumpTarget_toNat (ip : Word) {d : Int} (h : (Instr.jmpRel8 d).wellFormed = true) :
    ((jumpTarget ip d).toNat : Int) = ((ip.toNat : Int) + d + 2) % 2 ^ 32 := by
  have two : (2 : Word).toNat = 2 := rfl
  rw [jumpTarget, displacement_eq_ofInt h, BitVec.toNat_add, BitVec.toNat_add, BitVec.toNat_ofInt, two]
  omega

/-- The assembler gives a displacement only within its range, and then the one that closes the distance from the end of the
jump (30_encoding.md R68). -/
theorem rel8Of_eq_some {p target : Nat} {d : Int} :
    rel8Of p target = some d ↔ (Instr.jmpRel8 d).wellFormed = true ∧ (p : Int) + d + 2 = target := by
  rw [wellFormed_jmpRel8]
  unfold rel8Of
  simp only [Option.ite_none_right_eq_some, Option.some.injEq]
  omega

/-- Settles O20: a target below 2^32 is its own remainder. -/
theorem assembledDisplacementReachesItsTarget : Obligations.AssembledDisplacementReachesItsTarget := by
  intro s target d htarget h
  obtain ⟨hwf, hreach⟩ := rel8Of_eq_some.1 h
  refine ⟨hwf, _, exec_jmpRel8 d s, ?_⟩
  have hip := jumpTarget_toNat s.ip hwf
  rw [hreach] at hip
  rw [writeIP_ip]
  omega

end Sys2Proof.Machine
end

section
/-! The meaning of MOV r32, imm32 (40_data_movement.md): its effect and its frame, from every state. -/

namespace Sys2Proof.Machine

/-- IP moves on modulo 2^32 (10_state.md R22). -/
theorem advanceIP_ip_toNat (s : State) (n : Nat) :
    (s.advanceIP n).ip.toNat = (s.ip.toNat + n) % 2 ^ 32 := by
  rw [advanceIP_ip, BitVec.toNat_add, BitVec.toNat_ofNat, Nat.add_mod_mod]

/-- Settles O18: the move writes one register and moves IP on; what every operation leaves unchanged is the rest. -/
theorem movCompletesWithItsEffectAndFrame : Obligations.MovCompletesWithItsEffectAndFrame := by
  intro r imm s
  have hexec := exec_movImm32 r imm s
  obtain ⟨hmem, hflags, hstate⟩ := exec_frame hexec
  refine ⟨_, hexec, ?_, fun q hq => ?_, advanceIP_ip_toNat _ 5, hflags, hstate, ?_, fun a => ?_⟩
  · rw [readGpr_advanceIP, readGpr_writeGpr, if_pos rfl]
  · rw [readGpr_advanceIP, readGpr_writeGpr, if_neg hq.symm]
  · rw [hmem]
  · rw [hmem]

end Sys2Proof.Machine
end

section
/-! The meaning of JMP rel8 (41_control_transfer.md): its effect and its frame, from every state. -/

namespace Sys2Proof.Machine

/-- Settles O19: the jump writes IP alone, and `jumpTarget_toNat` gives the value it writes. -/
theorem jmpCompletesWithItsEffectAndFrame : Obligations.JmpCompletesWithItsEffectAndFrame := by
  intro d s hlow hhigh
  have hexec := exec_jmpRel8 d s
  obtain ⟨hmem, hflags, hstate⟩ := exec_frame hexec
  refine ⟨_, hexec, ?_, fun q => readGpr_writeIP .., hflags, hstate, ?_, fun a => ?_⟩
  · rw [writeIP_ip, jumpTarget_toNat s.ip (wellFormed_jmpRel8.2 ⟨hlow, hhigh⟩)]
  · rw [hmem]
  · rw [hmem]

end Sys2Proof.Machine
end

section
/-! The execution loop (50_execution_loop.md): what an instruction fetch answers in each of its cases, one step as those
fetches followed by the operation and the post-execution check, and where a run of steps stops. -/

namespace Sys2Proof.Machine

/-! ### The fetch that fails on an operand -/

/-- The converse of `fetchLE32_source_error`: the read would have to read its last byte (20_memory.md R40). -/
theorem fetchLE32_source_outside {m : Memory} {a k : Nat} (h : m.size ≤ a + k + 3) :
    fetchLE32 (m.source a) k = .error .outOfBoundsAccess := by
  cases hread : fetchLE32 (m.source a) k with
  | ok w =>
    obtain ⟨-, -, -, b3, -, -, -, hlast, -⟩ := fetchLE32_eq_ok.1 hread
    have hlt : a + (k + 3) < m.size := (read8_eq_ok.1 hlast).1
    omega
  | error e => rw [(fetchLE32_source_error hread).1]

/-- The converse of `fetchS8_source_error`. -/
theorem fetchS8_source_outside {m : Memory} {a k : Nat} (h : m.size ≤ a + k) :
    fetchS8 (m.source a) k = .error .outOfBoundsAccess := by
  simp only [fetchS8, fetchU8, Memory.source, read8_error h]

/-! ### The fetch, case by case (R75 to R78) -/

theorem fetchInstr_opcode_outside {s : State} (h : s.mem.size ≤ s.ip.toNat) :
    s.fetchInstr = .error .outOfBoundsAccess := by
  have hop : s.source 0 = .error .outOfBoundsAccess := read8_error h
  rw [State.fetchInstr, decodeFrom, fetchU8, hop]

section
variable {s : State} {op : Byte} (hop : s.mem.read8 s.ip.toNat = .ok op)
include hop

theorem fetchInstr_absent (hd : dispatch op = .absent) : s.fetchInstr = .error .unimplementedOpcode :=
  decodeFrom_absent hop hd

theorem fetchInstr_mov_operand_outside {r : GprIndex} (hd : dispatch op = .movImm32 r)
    (hN : s.mem.size ≤ s.ip.toNat + 4) : s.fetchInstr = .error .outOfBoundsAccess := by
  have hop : s.source 0 = .ok op := hop
  have himm : fetchLE32 s.source 1 = .error .outOfBoundsAccess := fetchLE32_source_outside hN
  simp [State.fetchInstr, decodeFrom, fetchU8, hop, hd, himm]

theorem fetchInstr_jmp_operand_outside (hd : dispatch op = .jmpRel8)
    (hN : s.mem.size ≤ s.ip.toNat + 1) : s.fetchInstr = .error .outOfBoundsAccess := by
  have hop : s.source 0 = .ok op := hop
  have hdisp : fetchS8 s.source 1 = .error .outOfBoundsAccess := fetchS8_source_outside hN
  simp [State.fetchInstr, decodeFrom, fetchU8, hop, hd, hdisp]

theorem fetchInstr_mov {r : GprIndex} (hd : dispatch op = .movImm32 r) (hN : s.ip.toNat + 4 < s.mem.size) :
    s.fetchInstr = .ok (.movImm32 r
      (lookupCell (s.ip.toNat + 4) s.mem.cells ++ lookupCell (s.ip.toNat + 3) s.mem.cells ++
        lookupCell (s.ip.toNat + 2) s.mem.cells ++ lookupCell (s.ip.toNat + 1) s.mem.cells)) := by
  have hread (k : Nat) (hk : k ≤ 4) : s.source k = .ok (lookupCell (s.ip.toNat + k) s.mem.cells) :=
    read8_ok (by omega)
  rw [← composeLE_eq_append]
  exact decodeFrom_movImm32 hop hd (fetchLE32_eq_ok.2
    ⟨_, _, _, _, hread 1 (by decide), hread 2 (by decide), hread 3 (by decide), hread 4 (by decide), rfl⟩)

end

/-! ### The post-execution check, case by case (R79) -/

theorem postState_of_ip_zero {s : State} (h : s.ip = 0) : postState s = .haltedNormally := if_pos h

theorem postState_of_inside {s : State} (h0 : s.ip ≠ 0) (hN : s.ip.toNat < s.mem.size) :
    postState s = .running := by
  rw [postState, if_neg h0, if_pos hN]

theorem postState_of_outside {s : State} (h0 : s.ip ≠ 0) (hN : s.mem.size ≤ s.ip.toNat) :
    postState s = .haltedOutOfBounds := by
  rw [postState, if_neg h0, if_neg (Nat.not_lt.2 hN)]

theorem postState_eq_haltedNormally {s : State} : postState s = .haltedNormally ↔ s.ip = 0 := by
  refine ⟨fun h => ?_, postState_of_ip_zero⟩
  obtain ⟨h0, -⟩ | ⟨-, -, hp⟩ | ⟨-, -, hp⟩ := postState_cases s
  · exact h0
  · cases hp.symm.trans h
  · cases hp.symm.trans h

/-- A Running state whose IP passes the check is one the check leaves as it is. -/
theorem postCheck_eq_self {s : State} (hr : s.execState = .running) (h0 : s.ip ≠ 0)
    (hN : s.ip.toNat < s.mem.size) : postCheck s = s := by
  rw [postCheck, postState_of_inside h0 hN, ← hr]

/-! ### One step from Running -/

theorem step_next {s u : State} {i : Instr} (hr : s.execState = .running) (hf : s.fetchInstr = .ok i)
    (hu : exec i s = .next u) : step s = .next (postCheck u) := by
  rw [step_ok hr hf, hu]
  rfl

theorem step_of_running {s : State} (hr : s.execState = .running) : ∃ t, step s = .next t := by
  cases hf : s.fetchInstr with
  | error e => exact ⟨_, step_error hr hf⟩
  | ok i =>
    obtain ⟨u, hu, -⟩ := exec_cases i s
    exact ⟨_, step_next hr hf hu⟩

/-- Settles O30: a step that answers a next state started Running, and Running it always answers one. -/
theorem stepExistsExactlyWhileRunning : Obligations.StepExistsExactlyWhileRunning :=
  fun _ => ⟨fun ⟨_, h⟩ => (step_cases h).1, step_of_running⟩

/-- Settles O23: the fetch of the opcode fails. -/
theorem opcodeFetchOutsideMemoryHalts : Obligations.OpcodeFetchOutsideMemoryHalts :=
  fun _ hr hN => step_error hr (fetchInstr_opcode_outside hN)

/-- Settles O24: the fetch fails on the opcode byte alone. -/
theorem absentOpcodeHalts : Obligations.AbsentOpcodeHalts :=
  fun _ _ hr hop hd => step_error hr (fetchInstr_absent hop hd)

/-- Settles O25: the fetch fails on the operand, for either operation. -/
theorem operandOutsideMemoryHaltsWithoutWrite : Obligations.OperandOutsideMemoryHaltsWithoutWrite := by
  rintro s op hr hop (⟨⟨r, hd⟩, hN⟩ | ⟨hd, hN⟩)
  · exact step_error hr (fetchInstr_mov_operand_outside hop hd hN)
  · exact step_error hr (fetchInstr_jmp_operand_outside hop hd hN)

/-- Settles O22: the three cases of the check, on the state the operation left. -/
theorem postExecutionCheck : Obligations.PostExecutionCheck :=
  fun _ _ _ hr hf hu =>
    ⟨_, step_next hr hf hu, postState_of_ip_zero, postState_of_inside, postState_of_outside, rfl, rfl, rfl, rfl⟩

/-- Settles O21: the bytes at IP begin with the encoding of the instruction, so the fetch finds it. -/
theorem stepRunsTheDecodedInstruction : Obligations.StepRunsTheDecodedInstruction := by
  intro s bs rest i hr hbytes hdecode
  obtain ⟨hwf, rfl⟩ := decode_eq_ok_iff_encode.1 hdecode
  have hstarts : StartsWith s.source (encode i) := fun k hk =>
    (hbytes k (Nat.lt_of_lt_of_le hk (by simp))).trans (by rw [List.getElem_append_left hk])
  obtain ⟨u, hu, -⟩ := exec_cases i s
  exact ⟨u, hu, step_next hr (fetchInstr_eq_ok.2 ⟨hwf, hstarts⟩) hu⟩

/-- Settles O29: an error's halt is never HaltedNormally, the check tests the new IP, and the loop does not test the IP it
starts from. -/
theorem normalHaltOnlyAfterAnOperation : Obligations.NormalHaltOnlyAfterAnOperation := by
  refine ⟨fun s t h ht => ?_, fun s i hr _ hf => ?_, fun p hp hip => ?_⟩
  · obtain ⟨-, ⟨e, -, rfl⟩ | ⟨i, u, hf, hu, rfl⟩⟩ := step_cases h
    · cases e <;> cases ht
    · exact ⟨i, u, hf, hu, postState_eq_haltedNormally.1 ht, by rw [← ht]; rfl⟩
  · obtain ⟨u, hu, -⟩ := exec_cases i s
    exact ⟨u, _, hu, step_next hr hf hu, rfl⟩
  · exact ⟨_, construct_eq_next.2 ⟨hp, rfl⟩, hip, rfl⟩

/-! ### The staged loop in one formula -/

theorem dispatch_of_mov_block {op : Byte} (h : 0xB8 ≤ op.toNat ∧ op.toNat ≤ 0xBF) :
    dispatch op = .movImm32 (gprOfOpcode op) := if_pos h

/-- In the block of moves the index is the opcode less 0xB8 (30_encoding.md R59). -/
theorem gprOfOpcode_val_of_mov_block {op : Byte} (h : 0xB8 ≤ op.toNat ∧ op.toNat ≤ 0xBF) :
    (gprOfOpcode op).val = (op.toNat - 0xB8) % 8 := by
  rw [gprOfOpcode_val]
  omega

/-- Settles O26: each branch of the formula is one case of the fetch, in the order of R93. -/
theorem stepIsTheStagedLoop : Obligations.StepIsTheStagedLoop := by
  intro s hr N p M check
  by_cases hp : N ≤ p
  · rw [if_pos hp]
    exact step_error hr (fetchInstr_opcode_outside hp)
  have hop : s.mem.read8 p = .ok (M 0) := read8_ok (Nat.not_le.1 hp)
  rw [if_neg hp]
  by_cases hmov : 0xB8 ≤ (M 0).toNat ∧ (M 0).toNat ≤ 0xBF
  · have hd := dispatch_of_mov_block hmov
    rw [if_pos hmov]
    by_cases hN : N ≤ p + 4
    · rw [if_pos hN]
      exact step_error hr (fetchInstr_mov_operand_outside hop hd hN)
    · rw [if_neg hN, step_next hr (fetchInstr_mov hop hd (Nat.not_le.1 hN)) (exec_movImm32 ..)]
      simp only [← gprOfOpcode_val_of_mov_block hmov]
      rfl
  rw [if_neg hmov]
  by_cases hjmp : (M 0).toNat = 0xEB
  · have hM : M 0 = 0xEB := BitVec.eq_of_toNat_eq hjmp
    rw [if_pos hjmp]
    by_cases hN : N ≤ p + 1
    · rw [if_pos hN]
      exact step_error hr (fetchInstr_jmp_operand_outside hop (dispatch_eq_jmpRel8.2 hM) hN)
    · obtain ⟨hf, -, -, -, htarget⟩ :=
        jmpOperandFromTheByteAtIP s (M 1) (hop.trans (by rw [hM])) (read8_ok (Nat.not_le.1 hN))
      rw [if_neg hN, step_next hr hf (exec_jmpRel8 ..), htarget]
      rfl
  · have hd : dispatch (M 0) = .absent := by rw [dispatch, if_neg hmov, if_neg hjmp]
    rw [if_neg hjmp]
    exact step_error hr (fetchInstr_absent hop hd)

/-! ### A halted machine -/

theorem step_halted {s : State} {o : Host.Outcome State Fault Refusal}
    (h : haltedAnswer s.execState = some o) : step s = o := by
  rw [step, h]

/-- Settles O31: each Halted state has its answer. -/
theorem haltedStepNamesTheEnd : Obligations.HaltedStepNamesTheEnd := fun _ =>
  ⟨fun h => step_halted (congrArg haltedAnswer h), fun h => step_halted (congrArg haltedAnswer h),
    fun h => step_halted (congrArg haltedAnswer h)⟩

/-- A step that answers no next state answers for the Halted state it stands in (50_execution_loop.md R80). -/
theorem step_eq_iff_haltedAnswer {s : State} {o : Host.Outcome State Fault Refusal} (ho : ∀ t, o ≠ .next t) :
    step s = o ↔ haltedAnswer s.execState = some o := by
  refine ⟨fun h => ?_, step_halted⟩
  cases ha : haltedAnswer s.execState with
  | some o' => rw [← step_halted ha, h]
  | none =>
    have hr : s.execState = .running := by cases hs : s.execState <;> simp [haltedAnswer, hs] at ha ⊢
    obtain ⟨t, ht⟩ := step_of_running hr
    exact absurd (h.symm.trans ht) (ho t)

theorem fault_ne_next (f : Fault) (t : State) : (.fault f : Host.Outcome State Fault Refusal) ≠ .next t := nofun

theorem refused_ne_next (r : Refusal) (t : State) : (.refused r : Host.Outcome State Fault Refusal) ≠ .next t := nofun

theorem step_eq_fault {s : State} {f : Fault} :
    step s = .fault f ↔
      (s.execState = .haltedUnimplemented ∧ f = .unimplementedOpcode) ∨
      (s.execState = .haltedOutOfBounds ∧ f = .outOfBoundsAccess) := by
  rw [step_eq_iff_haltedAnswer (fault_ne_next f)]
  cases s.execState <;> simp [haltedAnswer, eq_comm]

theorem step_eq_refused {s : State} {r : Refusal} :
    step s = .refused r ↔ s.endedWell ∧ r = .haltedNormally := by
  rw [step_eq_iff_haltedAnswer (refused_ne_next r), State.endedWell]
  cases s.execState <;> simp [haltedAnswer, eq_comm]

/-! ### Where a run stops -/

/-- A run whose first step answers no next state answers what that step does. -/
theorem run_succ_stops {s : State} {o : Host.Outcome State Fault Refusal} (ho : ∀ t, o ≠ .next t)
    (h : step s = o) (k : Nat) : Sys2Proof.core.run (k + 1) s = o := by
  cases o with
  | next t => exact absurd rfl (ho t)
  | fault f => exact run_succ_fault h k
  | refused r => exact run_succ_refused h k

/-- A run that reaches a state which takes no step goes no further, however many steps are left. -/
theorem run_stops_of_reached {o : Host.Outcome State Fault Refusal} (ho : ∀ t, o ≠ .next t) {j k : Nat} {s t : State}
    (hj : j < k) (hreach : Sys2Proof.core.run j s = .next t) (hstep : step t = o) : Sys2Proof.core.run k s = o := by
  induction k generalizing s j with
  | zero => exact absurd hj (Nat.not_lt_zero j)
  | succ k ih =>
    cases j with
    | zero =>
      cases hreach
      exact run_succ_stops ho hstep k
    | succ j =>
      obtain ⟨u, hu, hreach⟩ := run_succ_cases hreach
      rw [run_succ_next hu]
      exact ih (Nat.lt_of_succ_lt_succ hj) hreach

/-- The converse: a run that answers no next state has reached a state which takes no step. -/
theorem reached_of_run_stops {o : Host.Outcome State Fault Refusal} (ho : ∀ t, o ≠ .next t) {k : Nat} {s : State}
    (h : Sys2Proof.core.run k s = o) :
    ∃ (j : Nat) (t : State), j < k ∧ Sys2Proof.core.run j s = .next t ∧ step t = o := by
  induction k generalizing s with
  | zero => exact absurd h.symm (ho s)
  | succ k ih =>
    by_cases hs : ∃ u, step s = .next u
    · obtain ⟨u, hu⟩ := hs
      rw [run_succ_next hu] at h
      obtain ⟨j, t, hj, hreach, hstep⟩ := ih h
      exact ⟨j + 1, t, Nat.succ_lt_succ hj, (run_succ_next hu j).trans hreach, hstep⟩
    · have hstep : step s = o := (run_succ_stops (not_exists.1 hs) rfl k).symm.trans h
      exact ⟨0, s, Nat.succ_pos k, run_zero s, hstep⟩

theorem run_stops_iff {o : Host.Outcome State Fault Refusal} (ho : ∀ t, o ≠ .next t) (k : Nat) (s : State) :
    Sys2Proof.core.run k s = o ↔
      ∃ (j : Nat) (t : State), j < k ∧ Sys2Proof.core.run j s = .next t ∧ step t = o :=
  ⟨reached_of_run_stops ho, fun ⟨_, _, hj, hreach, hstep⟩ => run_stops_of_reached ho hj hreach hstep⟩

/-- Settles O33: the run stops at the first state that takes no step, and what a step answers there names the halt. -/
theorem runStopsExactlyAtItsHalt : Obligations.RunStopsExactlyAtItsHalt := fun k s =>
  ⟨fun f => (run_stops_iff (fault_ne_next f) k s).trans <| exists₂_congr fun _ _ =>
      and_congr_right' <| and_congr_right' step_eq_fault,
    fun r => (run_stops_iff (refused_ne_next r) k s).trans <| exists₂_congr fun _ _ =>
      and_congr_right' <| and_congr_right' step_eq_refused⟩

/-! ### A run without end (R82) -/

theorem run_of_step_self {s : State} (h : step s = .next s) (k : Nat) : Sys2Proof.core.run k s = .next s := by
  induction k with
  | zero => exact run_zero s
  | succ k ih => rw [run_succ_next h, ih]

/-- The displacement -2 takes a jump back to its own opcode. -/
theorem jumpTarget_self (ip : Word) : jumpTarget ip (0xFE : Byte).toInt = ip := by
  have back : displacement (0xFE : Byte).toInt + 2 = 0 := by decide
  rw [jumpTarget, BitVec.add_assoc, back, add_zero]

/-- Settles O34: the jump leaves IP and the check leaves the state, so one step answers the state it started from. -/
theorem selfJumpRunsForever : Obligations.SelfJumpRunsForever := by
  intro s hr h0 hop hb
  obtain ⟨hf, -⟩ := jmpOperandFromTheByteAtIP s 0xFE hop hb
  have hu : exec (.jmpRel8 (0xFE : Byte).toInt) s = .next s := by rw [exec_jmpRel8, jumpTarget_self]; rfl
  have hself : step s = .next s := by
    rw [step_next hr hf hu, postCheck_eq_self hr h0 (read8_eq_ok.1 hop).1]
  have hrun := run_of_step_self hself
  exact ⟨hrun, fun k f h => nomatch (hrun k).symm.trans h⟩

end Sys2Proof.Machine
end

section
/-! The error halts (60_exceptions.md): when each is reached, the record it leaves, and what the host reads of it. -/

namespace Sys2Proof.Machine

/-! ### The two error halts and the stages that cause them -/

theorem haltState_eq_haltedUnimplemented {e : ErrorClass} :
    ErrorClass.haltState e = .haltedUnimplemented ↔ e = .unimplementedOpcode := by
  cases e <;> decide

theorem haltState_eq_haltedOutOfBounds {e : ErrorClass} :
    ErrorClass.haltState e = .haltedOutOfBounds ↔ e = .outOfBoundsAccess := by
  cases e <;> decide

/-- The fetch stages find an unimplemented opcode exactly on an absent byte in memory (60_exceptions.md R89). -/
theorem fetchInstr_eq_unimplementedOpcode {s : State} :
    s.fetchInstr = .error .unimplementedOpcode ↔
      s.ip.toNat < s.mem.size ∧ dispatch (lookupCell s.ip.toNat s.mem.cells) = .absent := by
  refine ⟨fun h => ?_, fun ⟨hip, hd⟩ => fetchInstr_absent (read8_ok hip) hd⟩
  obtain ⟨op, hop, hd⟩ := absent_of_fetchInstr_unimplemented h
  obtain ⟨hip, rfl⟩ := read8_eq_ok.1 hop
  exact ⟨hip, hd⟩

/-- The fetch stages find an access out of bounds in exactly three cases (60_exceptions.md R88 a to c). -/
theorem fetchInstr_eq_outOfBoundsAccess {s : State} :
    s.fetchInstr = .error .outOfBoundsAccess ↔
      s.mem.size ≤ s.ip.toNat ∨
      (s.ip.toNat < s.mem.size ∧ s.mem.size ≤ s.ip.toNat + 4 ∧
        ∃ r, dispatch (lookupCell s.ip.toNat s.mem.cells) = .movImm32 r) ∨
      (s.ip.toNat < s.mem.size ∧ s.mem.size ≤ s.ip.toNat + 1 ∧
        dispatch (lookupCell s.ip.toNat s.mem.cells) = .jmpRel8) := by
  refine ⟨fun h => ?_, ?_⟩
  · obtain ⟨hip, -⟩ | ⟨-, -, he⟩ | ⟨hip, hN, -, hd⟩ | ⟨hip, hN, -, hd⟩ := fetchInstr_error h
    · exact .inl hip
    · cases he
    · exact .inr (.inl ⟨hip, hN, hd⟩)
    · exact .inr (.inr ⟨hip, hN, hd⟩)
  · rintro (hip | ⟨hip, hN, r, hd⟩ | ⟨hip, hN, hd⟩)
    · exact fetchInstr_opcode_outside hip
    · exact fetchInstr_mov_operand_outside (read8_ok hip) hd hN
    · exact fetchInstr_jmp_operand_outside (read8_ok hip) hd hN

/-- The post-execution check finds no unimplemented opcode (50_execution_loop.md R79). -/
theorem postState_ne_haltedUnimplemented (s : State) : postState s ≠ .haltedUnimplemented := by
  obtain ⟨-, hp⟩ | ⟨-, -, hp⟩ | ⟨-, -, hp⟩ := postState_cases s <;> simp [hp]

theorem postState_eq_haltedOutOfBounds {s : State} :
    postState s = .haltedOutOfBounds ↔ s.ip ≠ 0 ∧ s.mem.size ≤ s.ip.toNat := by
  refine ⟨fun h => ?_, fun ⟨h0, hN⟩ => postState_of_outside h0 hN⟩
  obtain ⟨-, hp⟩ | ⟨-, -, hp⟩ | ⟨h0, hN, -⟩ := postState_cases s
  · cases hp.symm.trans h
  · cases hp.symm.trans h
  · exact ⟨h0, hN⟩

theorem postCheck_of_outside {s : State} (h0 : s.ip ≠ 0) (hN : s.mem.size ≤ s.ip.toNat) :
    postCheck s = { s with execState := .haltedOutOfBounds } := by
  rw [postCheck, postState_of_outside h0 hN]

/-! ### When each error halt is reached (R88, R89) -/

/-- Settles O27: of the two ways a step ends, only an error of the fetch stages gives this halt. -/
theorem haltedUnimplementedExactlyOnAbsentOpcode : Obligations.HaltedUnimplementedExactlyOnAbsentOpcode := by
  refine fun s t => ⟨fun ⟨h, ht⟩ => ?_, fun ⟨hr, hip, hd, ht⟩ => ?_⟩
  · obtain ⟨hr, ⟨e, hf, rfl⟩ | ⟨i, u, -, -, rfl⟩⟩ := step_cases h
    · obtain rfl := haltState_eq_haltedUnimplemented.1 ht
      obtain ⟨hip, hd⟩ := fetchInstr_eq_unimplementedOpcode.1 hf
      exact ⟨hr, hip, hd, rfl⟩
    · exact absurd ht (postState_ne_haltedUnimplemented u)
  · subst ht
    exact ⟨step_error hr (fetchInstr_eq_unimplementedOpcode.2 ⟨hip, hd⟩), rfl⟩

/-- Settles O28: cases (a) to (c) are the errors of the fetch stages, case (d) is the post-execution check's. -/
theorem haltedOutOfBoundsInExactlyFourCases : Obligations.HaltedOutOfBoundsInExactlyFourCases := by
  refine fun s t => ⟨fun ⟨h, ht⟩ => ?_, ?_⟩
  · obtain ⟨hr, ⟨e, hf, rfl⟩ | ⟨i, u, hf, hu, rfl⟩⟩ := step_cases h
    · obtain rfl := haltState_eq_haltedOutOfBounds.1 ht
      exact ⟨hr, .inl ⟨rfl, fetchInstr_eq_outOfBoundsAccess.1 hf⟩⟩
    · obtain ⟨h0, hN⟩ := postState_eq_haltedOutOfBounds.1 ht
      exact ⟨hr, .inr ⟨i, u, hf, hu, h0, hN, postCheck_of_outside h0 hN⟩⟩
  · rintro ⟨hr, ⟨rfl, hcases⟩ | ⟨i, u, hf, hu, h0, hN, rfl⟩⟩
    · exact ⟨step_error hr (fetchInstr_eq_outOfBoundsAccess.2 hcases), rfl⟩
    · exact ⟨(step_next hr hf hu).trans (by rw [postCheck_of_outside h0 hN]), rfl⟩

/-! ### The record of a halt (R91) -/

theorem haltRecord_of_haltedNormally {s : State} (h : s.execState = .haltedNormally) :
    s.haltRecord ↔ s.ip = 0 := by
  rw [State.haltRecord, h]

theorem haltRecord_of_haltedUnimplemented {s : State} (h : s.execState = .haltedUnimplemented) :
    s.haltRecord ↔
      s.ip.toNat < s.mem.size ∧ dispatch (lookupCell s.ip.toNat s.mem.cells) = .absent := by
  rw [State.haltRecord, h]

theorem haltRecord_of_haltedOutOfBounds {s : State} (h : s.execState = .haltedOutOfBounds) :
    s.haltRecord ↔
      s.mem.size ≤ s.ip.toNat ∨
      (s.mem.size ≤ s.ip.toNat + 4 ∧ ∃ r, dispatch (lookupCell s.ip.toNat s.mem.cells) = .movImm32 r) ∨
      (s.mem.size ≤ s.ip.toNat + 1 ∧ dispatch (lookupCell s.ip.toNat s.mem.cells) = .jmpRel8) := by
  rw [State.haltRecord, h]

/-- A step leaves the record of its halt whatever the state it started from: how each halt is reached says it. -/
theorem step_haltRecord {s t : State} (h : step s = .next t) : t.haltRecord := by
  cases ht : t.execState with
  | running => exact haltRecord_of_running ht
  | haltedNormally =>
    obtain ⟨i, u, -, -, h0, rfl⟩ := normalHaltOnlyAfterAnOperation.1 s t h ht
    exact (haltRecord_of_haltedNormally ht).2 h0
  | haltedUnimplemented =>
    obtain ⟨-, hip, hd, rfl⟩ := (haltedUnimplementedExactlyOnAbsentOpcode s t).1 ⟨h, ht⟩
    exact (haltRecord_of_haltedUnimplemented ht).2 ⟨hip, hd⟩
  | haltedOutOfBounds =>
    rw [haltRecord_of_haltedOutOfBounds ht]
    obtain ⟨-, ⟨rfl, hip | ⟨-, hN, hd⟩ | ⟨-, hN, hd⟩⟩ | ⟨i, u, -, -, -, hN, rfl⟩⟩ :=
      (haltedOutOfBoundsInExactlyFourCases s t).1 ⟨h, ht⟩
    · exact .inl hip
    · exact .inr (.inl ⟨hN, hd⟩)
    · exact .inr (.inr ⟨hN, hd⟩)
    · exact .inl hN

/-- Settles O35: memory is the same and the halt leaves its record. -/
theorem stepKeepsTheInvariant : Obligations.StepKeepsTheInvariant := fun _ _ hs h =>
  { memWf := by rw [step_mem h]; exact hs.memWf
    memSize := by rw [step_mem h]; exact hs.memSize
    record := step_haltRecord h }

/-! ### The host's read after a halt (R87, R90, R92, R104) -/

theorem hostView_eq_none {s : State} : hostView s = none ↔ s.execState = .running := by
  refine ⟨fun h => ?_, hostView_running⟩
  by_contra hs
  cases (hostView_halted hs).symm.trans h

theorem hostView_eq_some {s : State} {v : HostView} (h : hostView s = some v) :
    v.mem = s.mem ∧ v.gpr = s.gpr ∧ v.flags = s.flags ∧ v.ip = s.ip ∧ v.execState = s.execState := by
  by_cases hs : s.execState = .running
  · cases (hostView_running hs).symm.trans h
  · cases (hostView_halted hs).symm.trans h
    exact ⟨rfl, rfl, rfl, rfl, rfl⟩

/-- What the execution state names after a step that halts: the error of the fetch stages, or what the post-execution check
found. -/
theorem step_names_its_error {s t : State} (h : step s = .next t) (ht : t.execState ≠ .running) :
    (∃ e, s.fetchInstr = .error e ∧ errorOf t.execState = some e) ∨
    (∃ i u, s.fetchInstr = .ok i ∧ exec i s = .next u ∧
      ((u.ip = 0 ∧ t.execState = .haltedNormally ∧ errorOf t.execState = none) ∨
       (u.ip ≠ 0 ∧ u.mem.size ≤ u.ip.toNat ∧ errorOf t.execState = some .outOfBoundsAccess))) := by
  obtain ⟨-, ⟨e, hf, rfl⟩ | ⟨i, u, hf, hu, rfl⟩⟩ := step_cases h
  · exact .inl ⟨e, hf, errorOf_haltState e⟩
  · refine .inr ⟨i, u, hf, hu, ?_⟩
    rw [postCheck_execState] at ht ⊢
    obtain ⟨h0, hp⟩ | ⟨-, -, hp⟩ | ⟨h0, hN, hp⟩ := postState_cases u
    · exact .inl ⟨h0, hp, by rw [hp]; rfl⟩
    · exact absurd hp ht
    · exact .inr ⟨h0, hN, by rw [hp]; rfl⟩

/-- Settles O42: the view of a halted state is the state's own, and a step that halts names its error there. -/
theorem hostReadsOnlyAfterAHalt : Obligations.HostReadsOnlyAfterAHalt :=
  ⟨fun _ => hostView_eq_none, fun _ _ => hostView_eq_some,
    fun _ _ h ht => ⟨_, hostView_halted ht, step_mem h, step_names_its_error h ht⟩, rfl, rfl, rfl, rfl⟩

end Sys2Proof.Machine
end

section
/-! The reset and the launch as the host meets them, the word four bytes compose, and memory in canonical form as a function of
its reads. -/

namespace Sys2Proof

/-! ### The value of a composed word (20_memory.md R42) -/

/-- A byte appended below a word is the remainder of its value by 2^8. -/
theorem toNat_append_byte {w : Nat} (hi : BitVec w) (lo : Byte) :
    (hi ++ lo).toNat = 2 ^ 8 * hi.toNat + lo.toNat := by
  rw [BitVec.toNat_append, ← Nat.shiftLeft_add_eq_or_of_lt lo.isLt, Nat.shiftLeft_eq, Nat.mul_comm]

/-- Settles O6: the word is its bytes side by side, so each byte above another counts 2^8 times as much. -/
theorem composedWordHasTheLittleEndianValue : Obligations.ComposedWordHasTheLittleEndianValue := by
  intro b0 b1 b2 b3
  rw [composeLE_eq_append, toNat_append_byte, toNat_append_byte, toNat_append_byte]
  omega

end Sys2Proof

namespace Sys2Proof.Machine

/-! ### Canonical memories and their reads (log 12) -/

/-- In the canonical order, a list of cells holds a cell exactly when looking up its address finds its byte. -/
theorem mem_cells_iff_lookupCell {cs : List Host.Cell} (hsorted : cs.Pairwise (fun x y => x.1 < y.1))
    (hbytes : ∀ c ∈ cs, c.2 ≠ 0) {c : Host.Cell} : c ∈ cs ↔ c.2 = lookupCell c.1 cs ∧ c.2 ≠ 0 := by
  induction cs with
  | nil => simp [lookupCell]
  | cons d rest ih =>
    obtain ⟨hfirst, hrest⟩ := List.pairwise_cons.1 hsorted
    obtain ⟨hd, hbytes⟩ := List.forall_mem_cons.1 hbytes
    have ih := ih hrest hbytes
    rw [List.mem_cons, lookupCell]
    by_cases haddr : d.1 = c.1
    · have hnot : c ∉ rest := fun hc => Nat.ne_of_lt (hfirst c hc) haddr
      rw [if_pos haddr]
      refine ⟨fun h => ?_, fun ⟨hbyte, _⟩ => .inl (Prod.ext haddr.symm hbyte)⟩
      obtain rfl := h.resolve_right hnot
      exact ⟨rfl, hd⟩
    · have hne : c ≠ d := fun h => haddr (congrArg Prod.fst h.symm)
      rw [if_neg haddr, ← ih, or_iff_right hne]

/-- The cells of a canonical memory are its reads of a byte other than 0. -/
theorem mem_cells_iff_read8 {m : Memory} (h : m.wf) {c : Host.Cell} :
    c ∈ m.cells ↔ m.read8 c.1 = .ok c.2 ∧ c.2 ≠ 0 := by
  obtain ⟨hsorted, hcells⟩ := h
  have hmem := mem_cells_iff_lookupCell hsorted (fun d hd => (hcells d hd).2) (c := c)
  rw [read8_eq_ok, and_assoc, ← hmem]
  exact ⟨fun hc => ⟨(hcells c hc).1, hc⟩, And.right⟩

/-- Rising addresses leave one order for given cells. -/
theorem cells_eq_of_mem_iff {cs cs' : List Host.Cell} (h : cs.Pairwise (fun x y => x.1 < y.1))
    (h' : cs'.Pairwise (fun x y => x.1 < y.1)) (hmem : ∀ c, c ∈ cs ↔ c ∈ cs') : cs = cs' := by
  have : Std.Irrefl (fun x y : Host.Cell => x.1 < y.1) := ⟨fun x => Nat.lt_irrefl x.1⟩
  have : Std.Antisymm (fun x y : Host.Cell => x.1 < y.1) := ⟨fun _ _ hxy hyx => absurd hyx (Nat.lt_asymm hxy)⟩
  exact List.Pairwise.eq_of_mem_iff h h' hmem

/-- Settles O7: equal reads give the same cells, and both memories list them by rising address. -/
theorem equalReadsGiveEqualMemories : Obligations.EqualReadsGiveEqualMemories := by
  intro m m' h h' hsize hreads
  have hcells : m.cells = m'.cells := cells_eq_of_mem_iff h.1 h'.1 fun c => by
    rw [mem_cells_iff_read8 h, mem_cells_iff_read8 h', hreads]
  exact congrArg₂ Memory.mk hsize hcells

/-! ### The reset state and the launch (00_scope.md R6, 10_state.md R30) -/

theorem reset_eq_constructed : State.reset = constructed Params.default :=
  (construct_eq_next.1 construct_default).2

/-- Settles O1: reset is the default launch's constructed state, whose image is empty. -/
theorem resetIsTheDefaultConstruction : Obligations.ResetIsTheDefaultConstruction := by
  refine ⟨construct_default, rfl, fun a ha => ?_, ?_, fun r hr => ?_, rfl, rfl, rfl⟩
  · rw [reset_eq_constructed]
    exact constructed_read8_beyond_image (Nat.zero_le a) ha
  · rw [reset_eq_constructed, constructed_readGpr, if_pos rfl]
    rfl
  · rw [reset_eq_constructed, constructed_readGpr, if_neg hr]

theorem construct_out_of_range {p : Params} (h : ¬ p.inRange) : construct p = .refused .launchRefused :=
  if_neg h

theorem construct_answers_iff {p : Params} : (∃ s, construct p = .next s) ↔ p.inRange :=
  ⟨fun ⟨_, h⟩ => (construct_eq_next.1 h).1, fun hp => ⟨_, construct_eq_next.2 ⟨hp, rfl⟩⟩⟩

/-- Settles O3: the ranges written out are the model's `Params.inRange`, the test construction makes. -/
theorem launchOutOfRangeIsRefused : Obligations.LaunchOutOfRangeIsRefused := fun _ =>
  ⟨construct_answers_iff, construct_out_of_range⟩

end Sys2Proof.Machine
end
